-- ==== Sys2Proof/Word.lean ====
section
/-!
DEFINITION. The widths of the R8 (spec/00_scope.md R6, spec/10_state.md R21): a data word and an address are 16 bits,
an 8-bit constant is a byte, a register field is 4 bits.
-/

namespace Sys2Proof

/-- A register, a memory word, an address or an ALU result: 16 bits (R6, R9). -/
abbrev Word := BitVec 16

/-- An 8-bit constant, or half of a word (R8, R61). -/
abbrev Byte := BitVec 8

/-- The number of a general register, as a 4-bit instruction field holds it (R21, R67). -/
abbrev Reg := BitVec 4

end Sys2Proof
end

