-- ==== Sys2Proof/Config.lean ====
section
/-!
DEFINITION. The parameters of spec/00_scope.md R7: the one the spec leaves OPEN is an opaque constant, the ones the spec
decides hold the decided value, and the values at reset that the spec does not state hold the value the assumption log names.
Then the free values of the suggested organisation, with the two lists of names they depend on.
-/

namespace Sys2Proof

/-- The two readings of C after a subtraction (spec/40_arith_logic.md R103). -/
inductive SubCarry where
  /-- C is 1 exactly when there was no borrow. -/
  | notBorrow
  /-- C is 1 exactly when there was a borrow. -/
  | borrow
deriving DecidableEq, Repr, Inhabited

/-- `SUB_CARRY`, the parameter the spec leaves OPEN (R103; spec/92_eei_decisions.md D10). It has no body: nothing can
be proved of its value, so a claim about C after SUB or SUBI holds under both readings. Log entry 7. -/
opaque Config.subCarry : SubCarry

/-- `STRICT_ZERO_FIELDS`: must the fields that Table 1 (ISA) shows as 0 be 0? Decided no (R74; D2). Log entry 10. -/
def Config.strictZeroFields : Bool := false

/-- `MEM_POPULATED`: which addresses have memory behind them. Decided: all (spec/20_memory.md R48; D12). Log entry 12. -/
def Config.memPopulated (_address : Word) : Bool := true

/-- `RESET_GPR`: R0 to R15 after reset. Decided 0000h (spec/10_state.md R37; D4). Log entry 3. -/
def Config.resetGpr : Word := 0

/-- DESIGN CHOICE, unsafe: SP at `State.reset`; the spec states no value (R38; D5). Log entry 4. -/
def Config.resetSp : Word := 0

/-- DESIGN CHOICE, unsafe: each of N, Z, C, V at `State.reset`; the spec states no value (R38; D6). Log entry 5. -/
def Config.resetFlag : Bool := false

/-- DESIGN CHOICE, unsafe: IR at `State.reset`; the spec states no value (R38; D7). Log entry 6. -/
def Config.resetIr : Word := 0

/-- DESIGN CHOICE, unsafe: what a byte of memory that no entry lists reads as. The spec states no value for a word
outside the loaded image (R49; D8, D22). Log entry 1. -/
def Config.unwrittenByte : Byte := 0

/-- The states of the control FSM (spec/70_reset_and_hazards.md R255). -/
inductive FsmState where
  | sfetch | srreg | shalt | salu | swbk | sld | sst | sjmp | ssbrt | spush | srts | spop | sldsp
deriving DecidableEq, Repr

/-- The 28 instruction classes of the decoder (spec/30_encoding.md R77). -/
inductive InstrClass where
  | add | sub | andI | orI | xorI | addi | subi | ldl | ldh | ld | st | sl0 | sl1 | sr0 | sr1 | notI | nop | halt | ldsp
  | rts | pop | push | rjump | jump | djump | jsrr | jsr | jsrd
deriving DecidableEq, Repr

/-- DESIGN CHOICE, safe: the control signal `wFlag`, whose role the source does not say (spec/70_reset_and_hazards.md R256;
spec/91_not_in_source.md N33), as a free value of the FSM state, the class of the instruction in IR and whether the
decoder recognises that class (R77). No body: nothing can be proved of it. Log entry 28. -/
opaque Config.wFlag : FsmState → Option InstrClass → Bool → Bool

/-- DESIGN CHOICE, safe: what the ALU answers for a class to which Table 2 gives no operation (PUSH, of those whose third
cycle writes RALU: spec/70_reset_and_hazards.md R254), as a free value of its operands. No body. Log entry 29. -/
opaque Config.aluUnlisted : InstrClass → Word → Word → Word

end Sys2Proof
end

