-- ==== Sys2Proof/Syntax.lean ====
section
/-!
DEFINITION. The 40 instructions of the R8, one constructor per row of spec/opcode_table.json. Operands stand in the order
of the assembly form (spec/30_encoding.md R78); each has exactly the width of its encoding field (R61), so every term of
`Instr` is an instruction.
-/

namespace Sys2Proof

/-- The instructions of Table 1 (ISA), in the table's order (spec/30_encoding.md R72, R73, R84). -/
inductive Instr where
  | add (rt rs1 rs2 : Reg)
  | sub (rt rs1 rs2 : Reg)
  | and (rt rs1 rs2 : Reg)
  | or (rt rs1 rs2 : Reg)
  | xor (rt rs1 rs2 : Reg)
  | addi (rt : Reg) (imm8 : Byte)
  | subi (rt : Reg) (imm8 : Byte)
  | ldl (rt : Reg) (imm8 : Byte)
  | ldh (rt : Reg) (imm8 : Byte)
  | ld (rt rs1 rs2 : Reg)
  /-- `rt` is the register whose value is stored (R142). -/
  | st (rt rs1 rs2 : Reg)
  | sl0 (rt rs1 : Reg)
  | sl1 (rt rs1 : Reg)
  | sr0 (rt rs1 : Reg)
  | sr1 (rt rs1 : Reg)
  | not (rt rs1 : Reg)
  | nop
  | halt
  | ldsp (rs1 : Reg)
  | rts
  | pop (rt : Reg)
  | push (rt : Reg)
  | jmpr (rs1 : Reg)
  | jmpnr (rs1 : Reg)
  | jmpzr (rs1 : Reg)
  | jmpcr (rs1 : Reg)
  | jmpvr (rs1 : Reg)
  | jmp (rs1 : Reg)
  | jmpn (rs1 : Reg)
  | jmpz (rs1 : Reg)
  | jmpc (rs1 : Reg)
  | jmpv (rs1 : Reg)
  | jsrr (rs1 : Reg)
  | jsr (rs1 : Reg)
  | jmpd (disp10 : BitVec 10)
  | jmpnd (disp10 : BitVec 10)
  | jmpzd (disp10 : BitVec 10)
  | jmpcd (disp10 : BitVec 10)
  | jmpvd (disp10 : BitVec 10)
  | jsrd (disp12 : BitVec 12)
deriving DecidableEq, Repr

end Sys2Proof
end

