-- ==== Sys2Proof/WellFormed.lean ====
section
/-!
DEFINITION. Which words are instructions, as the opcode table says it (spec/opcode_table.json; spec/30_encoding.md R74, R75,
R83): its 40 rows as masks and matches, written apart from the decoder so that the two can be held against each other.
-/

namespace Sys2Proof

/-- One row of the opcode table: a word `w` is the row's instruction when `w &&& mask = pattern`; under `strictMask` the
ignored fields must be 0 as well. -/
structure OpcodeRow where
  mnemonic : String
  mask : Word
  strictMask : Word
  pattern : Word
deriving DecidableEq, Repr

/-- Opcode table: the arithmetic and logic rows on registers and constants (R106 to R112), the constant loads (R131, R132) and LD, ST (R141, R142). -/
def arithmeticRows : List OpcodeRow :=
  [⟨"ADD", 0xF000#16, 0xF000#16, 0x0000#16⟩,
   ⟨"SUB", 0xF000#16, 0xF000#16, 0x1000#16⟩,
   ⟨"AND", 0xF000#16, 0xF000#16, 0x2000#16⟩,
   ⟨"OR", 0xF000#16, 0xF000#16, 0x3000#16⟩,
   ⟨"XOR", 0xF000#16, 0xF000#16, 0x4000#16⟩,
   ⟨"ADDI", 0xF000#16, 0xF000#16, 0x5000#16⟩,
   ⟨"SUBI", 0xF000#16, 0xF000#16, 0x6000#16⟩,
   ⟨"LDL", 0xF000#16, 0xF000#16, 0x7000#16⟩,
   ⟨"LDH", 0xF000#16, 0xF000#16, 0x8000#16⟩,
   ⟨"LD", 0xF000#16, 0xF000#16, 0x9000#16⟩,
   ⟨"ST", 0xF000#16, 0xF000#16, 0xA000#16⟩]

/-- Opcode table: the rows of major opcode Bh (R113 to R117, R152 to R154, R194, R200, R201). -/
def unaryStackRows : List OpcodeRow :=
  [⟨"SL0", 0xF00F#16, 0xF00F#16, 0xB000#16⟩,
   ⟨"SL1", 0xF00F#16, 0xF00F#16, 0xB001#16⟩,
   ⟨"SR0", 0xF00F#16, 0xF00F#16, 0xB002#16⟩,
   ⟨"SR1", 0xF00F#16, 0xF00F#16, 0xB003#16⟩,
   ⟨"NOT", 0xF00F#16, 0xF00F#16, 0xB004#16⟩,
   ⟨"NOP", 0xF00F#16, 0xFFFF#16, 0xB005#16⟩,
   ⟨"HALT", 0xF00F#16, 0xFFFF#16, 0xB006#16⟩,
   ⟨"LDSP", 0xF00F#16, 0xFF0F#16, 0xB007#16⟩,
   ⟨"RTS", 0xF00F#16, 0xFFFF#16, 0xB008#16⟩,
   ⟨"POP", 0xF00F#16, 0xF0FF#16, 0xB009#16⟩,
   ⟨"PUSH", 0xF00F#16, 0xF0FF#16, 0xB00A#16⟩]

/-- Opcode table: the rows of major opcode Ch (R163 to R172, R191, R192). -/
def registerJumpRows : List OpcodeRow :=
  [⟨"JMPR", 0xF00F#16, 0xFF0F#16, 0xC000#16⟩,
   ⟨"JMPNR", 0xF00F#16, 0xFF0F#16, 0xC001#16⟩,
   ⟨"JMPZR", 0xF00F#16, 0xFF0F#16, 0xC002#16⟩,
   ⟨"JMPCR", 0xF00F#16, 0xFF0F#16, 0xC003#16⟩,
   ⟨"JMPVR", 0xF00F#16, 0xFF0F#16, 0xC004#16⟩,
   ⟨"JMP", 0xF00F#16, 0xFF0F#16, 0xC005#16⟩,
   ⟨"JMPN", 0xF00F#16, 0xFF0F#16, 0xC006#16⟩,
   ⟨"JMPZ", 0xF00F#16, 0xFF0F#16, 0xC007#16⟩,
   ⟨"JMPC", 0xF00F#16, 0xFF0F#16, 0xC008#16⟩,
   ⟨"JMPV", 0xF00F#16, 0xFF0F#16, 0xC009#16⟩,
   ⟨"JSRR", 0xF00F#16, 0xFF0F#16, 0xC00A#16⟩,
   ⟨"JSR", 0xF00F#16, 0xFF0F#16, 0xC00B#16⟩]

/-- Opcode table: the rows of major opcodes Dh, Eh and Fh (R173 to R177, R193). -/
def displacementRows : List OpcodeRow :=
  [⟨"JMPD", 0xF000#16, 0xFC00#16, 0xD000#16⟩,
   ⟨"JMPND", 0xFC00#16, 0xFC00#16, 0xE000#16⟩,
   ⟨"JMPZD", 0xFC00#16, 0xFC00#16, 0xE400#16⟩,
   ⟨"JMPCD", 0xFC00#16, 0xFC00#16, 0xE800#16⟩,
   ⟨"JMPVD", 0xFC00#16, 0xFC00#16, 0xEC00#16⟩,
   ⟨"JSRD", 0xF000#16, 0xF000#16, 0xF000#16⟩]

/-- All 40 rows (R84). -/
def opcodeTable : List OpcodeRow :=
  arithmeticRows ++ unaryStackRows ++ registerJumpRows ++ displacementRows

/-- Is `w` one of the words the row covers? -/
def OpcodeRow.covers (row : OpcodeRow) (w : Word) : Bool := w &&& row.mask == row.pattern

/-- Is `w` one of the row's words whose ignored fields are all 0 (R74)? -/
def OpcodeRow.coversStrictly (row : OpcodeRow) (w : Word) : Bool := w &&& row.strictMask == row.pattern

/-- Is `w` assigned to an instruction? The 2304 words for which this is false are the unassigned encodings (R75). -/
def assignedWord (w : Word) : Bool := opcodeTable.any (·.covers w)

/-- Is `w` a canonical word: assigned, with every field that Table 1 (ISA) shows as 0 holding 0 (R74)? -/
def canonicalWord (w : Word) : Bool := opcodeTable.any (·.coversStrictly w)

/-- The table's name of an instruction (R78). -/
def Instr.mnemonic : Instr → String
  | .add _ _ _ => "ADD"
  | .sub _ _ _ => "SUB"
  | .and _ _ _ => "AND"
  | .or _ _ _ => "OR"
  | .xor _ _ _ => "XOR"
  | .addi _ _ => "ADDI"
  | .subi _ _ => "SUBI"
  | .ldl _ _ => "LDL"
  | .ldh _ _ => "LDH"
  | .ld _ _ _ => "LD"
  | .st _ _ _ => "ST"
  | .sl0 _ _ => "SL0"
  | .sl1 _ _ => "SL1"
  | .sr0 _ _ => "SR0"
  | .sr1 _ _ => "SR1"
  | .not _ _ => "NOT"
  | .nop => "NOP"
  | .halt => "HALT"
  | .ldsp _ => "LDSP"
  | .rts => "RTS"
  | .pop _ => "POP"
  | .push _ => "PUSH"
  | .jmpr _ => "JMPR"
  | .jmpnr _ => "JMPNR"
  | .jmpzr _ => "JMPZR"
  | .jmpcr _ => "JMPCR"
  | .jmpvr _ => "JMPVR"
  | .jmp _ => "JMP"
  | .jmpn _ => "JMPN"
  | .jmpz _ => "JMPZ"
  | .jmpc _ => "JMPC"
  | .jmpv _ => "JMPV"
  | .jsrr _ => "JSRR"
  | .jsr _ => "JSR"
  | .jmpd _ => "JMPD"
  | .jmpnd _ => "JMPND"
  | .jmpzd _ => "JMPZD"
  | .jmpcd _ => "JMPCD"
  | .jmpvd _ => "JMPVD"
  | .jsrd _ => "JSRD"

/-- A well-formed instruction is one whose operands fit their fields. The types of `Instr` already say so (a register is 4
bits, a constant 8, a displacement 10 or 12: R61), so no term is refused here; ill-formed WORDS are what `assignedWord` and
`canonicalWord` refuse. -/
def Instr.wellFormed (_i : Instr) : Bool := true

end Sys2Proof
end

