-- ==== Sys2Proof/Decode.lean ====
section
/-!
DEFINITION. From a word to an instruction and back: the fields of an instruction word (spec/30_encoding.md R61), the
decode algorithm (R76), total on all 65,536 words and rejecting by name, and the encoder of the canonical words (R83).
-/

namespace Sys2Proof

/-- `op = ir[15:12]`, the major opcode (R61). -/
def fieldOp (w : Word) : BitVec 4 := w.extractLsb' 12 4
/-- `rt = ir[11:8]` (R61). -/
def fieldRt (w : Word) : Reg := w.extractLsb' 8 4
/-- `rs1 = ir[7:4]` (R61). -/
def fieldRs1 (w : Word) : Reg := w.extractLsb' 4 4
/-- `rs2 = ir[3:0]` (R61). -/
def fieldRs2 (w : Word) : Reg := w.extractLsb' 0 4
/-- `sub = ir[3:0]`, the minor opcode when `op` is Bh or Ch (R61). -/
def fieldSub (w : Word) : BitVec 4 := w.extractLsb' 0 4
/-- `imm8 = ir[7:0]` (R61). -/
def fieldImm8 (w : Word) : Byte := w.extractLsb' 0 8
/-- `cond = ir[11:10]` (R61, R65; D3, log entry 11). -/
def fieldCond (w : Word) : BitVec 2 := w.extractLsb' 10 2
/-- `disp10 = ir[9:0]` (R61, R65). -/
def fieldDisp10 (w : Word) : BitVec 10 := w.extractLsb' 0 10
/-- `disp12 = ir[11:0]` (R61, R66). -/
def fieldDisp12 (w : Word) : BitVec 12 := w.extractLsb' 0 12

/-- Why a word is no instruction. Safe: the chip would do something the spec does not state (R75, R211; D1, log entry 9). -/
inductive DecodeError where
  /-- `op = Bh` with `sub` in Bh to Fh. -/
  | unassignedUnary (w : Word)
  /-- `op = Ch` with `sub` in Ch to Fh. -/
  | unassignedJump (w : Word)
  /-- A non-zero ignored field, only under `STRICT_ZERO_FIELDS` (R74). -/
  | nonCanonical (w : Word)
deriving DecidableEq, Repr

/-- Major opcode Bh: the unary, stack and control group (R73). -/
def decodeUnary (w : Word) : Except DecodeError Instr :=
  match (fieldSub w).toNat with
  | 0 => .ok (.sl0 (fieldRt w) (fieldRs1 w))
  | 1 => .ok (.sl1 (fieldRt w) (fieldRs1 w))
  | 2 => .ok (.sr0 (fieldRt w) (fieldRs1 w))
  | 3 => .ok (.sr1 (fieldRt w) (fieldRs1 w))
  | 4 => .ok (.not (fieldRt w) (fieldRs1 w))
  | 5 => .ok .nop
  | 6 => .ok .halt
  | 7 => .ok (.ldsp (fieldRs1 w))
  | 8 => .ok .rts
  | 9 => .ok (.pop (fieldRt w))
  | 10 => .ok (.push (fieldRt w))
  | _ => .error (.unassignedUnary w)

/-- Major opcode Ch: the register jump and call group (R73). -/
def decodeJump (w : Word) : Except DecodeError Instr :=
  match (fieldSub w).toNat with
  | 0 => .ok (.jmpr (fieldRs1 w))
  | 1 => .ok (.jmpnr (fieldRs1 w))
  | 2 => .ok (.jmpzr (fieldRs1 w))
  | 3 => .ok (.jmpcr (fieldRs1 w))
  | 4 => .ok (.jmpvr (fieldRs1 w))
  | 5 => .ok (.jmp (fieldRs1 w))
  | 6 => .ok (.jmpn (fieldRs1 w))
  | 7 => .ok (.jmpz (fieldRs1 w))
  | 8 => .ok (.jmpc (fieldRs1 w))
  | 9 => .ok (.jmpv (fieldRs1 w))
  | 10 => .ok (.jsrr (fieldRs1 w))
  | 11 => .ok (.jsr (fieldRs1 w))
  | _ => .error (.unassignedJump w)

/-- Major opcode Eh: the conditional displacement jumps, by `cond` (R72). -/
def decodeConditional (w : Word) : Instr :=
  match (fieldCond w).toNat with
  | 0 => .jmpnd (fieldDisp10 w)
  | 1 => .jmpzd (fieldDisp10 w)
  | 2 => .jmpcd (fieldDisp10 w)
  | _ => .jmpvd (fieldDisp10 w)

/-- The decode algorithm on `op`, `sub` and `cond` only; a field shown as 0 is not looked at (R72, R74, R76). -/
def decodeFields (w : Word) : Except DecodeError Instr :=
  match (fieldOp w).toNat with
  | 0 => .ok (.add (fieldRt w) (fieldRs1 w) (fieldRs2 w))
  | 1 => .ok (.sub (fieldRt w) (fieldRs1 w) (fieldRs2 w))
  | 2 => .ok (.and (fieldRt w) (fieldRs1 w) (fieldRs2 w))
  | 3 => .ok (.or (fieldRt w) (fieldRs1 w) (fieldRs2 w))
  | 4 => .ok (.xor (fieldRt w) (fieldRs1 w) (fieldRs2 w))
  | 5 => .ok (.addi (fieldRt w) (fieldImm8 w))
  | 6 => .ok (.subi (fieldRt w) (fieldImm8 w))
  | 7 => .ok (.ldl (fieldRt w) (fieldImm8 w))
  | 8 => .ok (.ldh (fieldRt w) (fieldImm8 w))
  | 9 => .ok (.ld (fieldRt w) (fieldRs1 w) (fieldRs2 w))
  | 10 => .ok (.st (fieldRt w) (fieldRs1 w) (fieldRs2 w))
  | 11 => decodeUnary w
  | 12 => decodeJump w
  | 13 => .ok (.jmpd (fieldDisp10 w))
  | 14 => .ok (decodeConditional w)
  | _ => .ok (.jsrd (fieldDisp12 w))

/-- The decoder: `decodeFields`, and under `STRICT_ZERO_FIELDS` (decided off) only canonical words (R74, R76). -/
def decode (w : Word) : Except DecodeError Instr :=
  if Config.strictZeroFields && !canonicalWord w && assignedWord w then .error (.nonCanonical w) else decodeFields w

/-- Format RRR (R62). -/
def encodeRRR (op : BitVec 4) (rt rs1 rs2 : Reg) : Word := op ++ rt ++ rs1 ++ rs2
/-- Format RI (R63). -/
def encodeRI (op : BitVec 4) (rt : Reg) (imm8 : Byte) : Word := op ++ rt ++ imm8
/-- Format RS (R64). -/
def encodeRS (op : BitVec 4) (rt rs1 : Reg) (sub : BitVec 4) : Word := op ++ rt ++ rs1 ++ sub
/-- Format D10 (R65). -/
def encodeD10 (op : BitVec 4) (cond : BitVec 2) (disp10 : BitVec 10) : Word := op ++ cond ++ disp10
/-- Format D12 (R66). -/
def encodeD12 (op : BitVec 4) (disp12 : BitVec 12) : Word := op ++ disp12

/-- The canonical word of an instruction (R83). -/
def encode : Instr → Word
  | .add rt rs1 rs2 => encodeRRR 0x0 rt rs1 rs2
  | .sub rt rs1 rs2 => encodeRRR 0x1 rt rs1 rs2
  | .and rt rs1 rs2 => encodeRRR 0x2 rt rs1 rs2
  | .or rt rs1 rs2 => encodeRRR 0x3 rt rs1 rs2
  | .xor rt rs1 rs2 => encodeRRR 0x4 rt rs1 rs2
  | .addi rt c => encodeRI 0x5 rt c
  | .subi rt c => encodeRI 0x6 rt c
  | .ldl rt c => encodeRI 0x7 rt c
  | .ldh rt c => encodeRI 0x8 rt c
  | .ld rt rs1 rs2 => encodeRRR 0x9 rt rs1 rs2
  | .st rt rs1 rs2 => encodeRRR 0xA rt rs1 rs2
  | .sl0 rt rs1 => encodeRS 0xB rt rs1 0x0
  | .sl1 rt rs1 => encodeRS 0xB rt rs1 0x1
  | .sr0 rt rs1 => encodeRS 0xB rt rs1 0x2
  | .sr1 rt rs1 => encodeRS 0xB rt rs1 0x3
  | .not rt rs1 => encodeRS 0xB rt rs1 0x4
  | .nop => encodeRS 0xB 0 0 0x5
  | .halt => encodeRS 0xB 0 0 0x6
  | .ldsp rs1 => encodeRS 0xB 0 rs1 0x7
  | .rts => encodeRS 0xB 0 0 0x8
  | .pop rt => encodeRS 0xB rt 0 0x9
  | .push rt => encodeRS 0xB rt 0 0xA
  | .jmpr rs1 => encodeRS 0xC 0 rs1 0x0
  | .jmpnr rs1 => encodeRS 0xC 0 rs1 0x1
  | .jmpzr rs1 => encodeRS 0xC 0 rs1 0x2
  | .jmpcr rs1 => encodeRS 0xC 0 rs1 0x3
  | .jmpvr rs1 => encodeRS 0xC 0 rs1 0x4
  | .jmp rs1 => encodeRS 0xC 0 rs1 0x5
  | .jmpn rs1 => encodeRS 0xC 0 rs1 0x6
  | .jmpz rs1 => encodeRS 0xC 0 rs1 0x7
  | .jmpc rs1 => encodeRS 0xC 0 rs1 0x8
  | .jmpv rs1 => encodeRS 0xC 0 rs1 0x9
  | .jsrr rs1 => encodeRS 0xC 0 rs1 0xA
  | .jsr rs1 => encodeRS 0xC 0 rs1 0xB
  | .jmpd d => encodeD10 0xD 0 d
  | .jmpnd d => encodeD10 0xE 0 d
  | .jmpzd d => encodeD10 0xE 1 d
  | .jmpcd d => encodeD10 0xE 2 d
  | .jmpvd d => encodeD10 0xE 3 d
  | .jsrd d => encodeD12 0xF d

/-- The instruction word that the host numbers as `w` on `nbits` bits: its one word, every bit above `nbits` 0 (R60). -/
def tableWord (nbits w : Nat) : Word := BitVec.ofNat 16 (w % 2 ^ nbits)

/-- What the decoder reads from the word the host numbers as `w`; none where it rejects. -/
def decodeTableWord (nbits w : Nat) : Option Instr :=
  match decode (tableWord nbits w) with
  | .ok i => some i
  | .error _ => none

end Sys2Proof
end

