-- ==== Sys2Proof/Machine/State.lean ====
section
/-!
DEFINITION. What the R8 is made of between two instructions (spec/10_state.md R20), the ways a step can stop, and the
machine right after reset.
-/

namespace Sys2Proof.Machine

/-- The four status flags (R29). They are in no register: nothing reads or writes them as a word. -/
structure Flags where
  /-- N, negative. -/
  n : Bool
  /-- Z, zero. -/
  z : Bool
  /-- C, carry. -/
  c : Bool
  /-- V, overflow. -/
  v : Bool
deriving DecidableEq, Repr

/-- The external memory (R35), as the list of its bytes that do not read as `Config.unwrittenByte`. The word at word address
`a` is two bytes: its low half is the cell `2a`, its high half the cell `2a + 1`. No instruction can tell: every access is a
whole word (spec/20_memory.md R42, R43; DESIGN CHOICE, safe: log entry 2). -/
abbrev Memory := List Host.Cell

/-- One past the highest cell: two cells for each of the 65,536 words (R40). -/
def Memory.limit : Nat := 131072

/-- The canonical form: cells strictly rising, inside the address space, none equal to what an unlisted cell reads as. -/
abbrev Memory.wf (m : Memory) : Prop :=
  m.Pairwise (fun a b => a.1 < b.1) ∧ ∀ cell ∈ m, cell.2 ≠ Config.unwrittenByte ∧ cell.1 < Memory.limit

/-- The whole state of one R8 (R20): there is nothing else. -/
structure State where
  /-- R0 to R15; none is hard-wired (R21, R22). -/
  regs : Vector Word 16
  /-- The program counter: between instructions, the word address of the next one (R24). -/
  pc : Word
  /-- The stack pointer: the address of the first free stack word (R27). -/
  sp : Word
  /-- The instruction register: the word fetched last (R31). -/
  ir : Word
  /-- N, Z, C, V (R29). -/
  flags : Flags
  /-- The external memory (R35). -/
  mem : Memory
  /-- The run state: set by HALT, cleared by reset only (R33). -/
  halted : Bool
deriving DecidableEq, Repr

/-- The two model-level faults (spec/60_exceptions.md R211). The hardware itself raises none (R210), and a state that raised
one is not a final state, so none is kept (log entry 20). -/
inductive Fault where
  /-- `IllegalInstruction(ir)`: raised by the step when the word fetched is one of the 2304 unassigned encodings. Safe: the
  chip would go on in a way the spec does not state (R75; D1, log entry 9). -/
  | illegalInstruction (ir : Word)
  /-- `UnpopulatedAccess(a)`: raised by a fetch, load or store where `Config.memPopulated` says there is no memory; with
  the decided value it never occurs (R48; D12, log entry 12). Safe. -/
  | unpopulatedAccess (address : Word)
deriving DecidableEq, Repr

/-- Why the model gives an instruction no meaning. -/
inductive Refusal where
  /-- Raised by an arm of `exec` whose instruction has no meaning yet; no arm of this model does. Safe. -/
  | notModelled (mnemonic : String)
deriving DecidableEq, Repr

/-- The machine right after reset, nothing loaded: PC and the run state as the source says (R36), R0 to R15 as the spec
decides (R37), SP, the flags and IR at the values the log names (R38: log entries 4, 5, 6), no memory cell listed. -/
def State.reset : State where
  regs := Vector.replicate 16 Config.resetGpr
  pc := 0
  sp := Config.resetSp
  ir := Config.resetIr
  flags := ⟨Config.resetFlag, Config.resetFlag, Config.resetFlag, Config.resetFlag⟩
  mem := []
  halted := false

end Sys2Proof.Machine
end

