-- ==== Sys2Proof/Machine/Ops.lean ====
section
/-!
DEFINITION. The named operations over memory and registers (the primitives of spec/00_scope.md R10), the stack, the fetch
and the reset event. There is no operation that takes an exception and none that returns from one: the R8 has neither
(spec/60_exceptions.md R210, R214, R215).
-/

namespace Sys2Proof.Machine

/-- The byte in cell `k`. -/
def Memory.readByte : Memory → Nat → Byte
  | [], _ => Config.unwrittenByte
  | (j, b) :: rest, k => if j = k then b else Memory.readByte rest k

/-- Put a new cell at its place in the rising order. -/
def Memory.insertByte (k : Nat) (b : Byte) : Memory → Memory
  | [] => [(k, b)]
  | cell :: rest => if k < cell.1 then (k, b) :: cell :: rest else cell :: Memory.insertByte k b rest

/-- Store a byte in cell `k`; the byte an unlisted cell reads as is stored by listing nothing. -/
def Memory.writeByte (m : Memory) (k : Nat) (b : Byte) : Memory :=
  let others := m.filter (fun cell => cell.1 ≠ k)
  if b = Config.unwrittenByte then others else Memory.insertByte k b others

/-- The cell of the low half of the word at `a`. -/
def lowCell (a : Word) : Nat := 2 * a.toNat

/-- The cell of the high half of the word at `a`. -/
def highCell (a : Word) : Nat := 2 * a.toNat + 1

/-- The word at word address `a`: the value last written there, or the initial content (spec/20_memory.md R47). -/
def Memory.readWord (m : Memory) (a : Word) : Word := m.readByte (highCell a) ++ m.readByte (lowCell a)

/-- Store the word `v` at word address `a`, whole (R43). -/
def Memory.writeWord (m : Memory) (a v : Word) : Memory :=
  (m.writeByte (lowCell a) (v.extractLsb' 0 8)).writeByte (highCell a) (v.extractLsb' 8 8)

/-- `x[r]` (R10, R67). -/
def State.reg (s : State) (r : Reg) : Word := s.regs[r.toNat]'r.isLt

/-- `x[r] <- v` (R10). -/
def State.setReg (s : State) (r : Reg) (v : Word) : State := { s with regs := s.regs.set r.toNat v r.isLt }

/-- `pc <- v` (R10). -/
def State.setPc (s : State) (v : Word) : State := { s with pc := v }

/-- `sp <- v` (R10). -/
def State.setSp (s : State) (v : Word) : State := { s with sp := v }

/-- `halted <- true` (R10, R33). -/
def State.setHalted (s : State) : State := { s with halted := true }

/-- `MemRead(a, 1)` (R10); outside the populated addresses, the model fault of R211. -/
def memRead (s : State) (a : Word) : Except Fault Word :=
  if Config.memPopulated a then .ok (s.mem.readWord a) else .error (.unpopulatedAccess a)

/-- `MemWrite(a, 1, v)` (R10); outside the populated addresses, the model fault of R211. -/
def memWrite (s : State) (a v : Word) : Except Fault State :=
  if Config.memPopulated a then .ok { s with mem := s.mem.writeWord a v } else .error (.unpopulatedAccess a)

/-- A push: the word goes to `sp`, then `sp` is decremented modulo 2^16 (spec/43_stack.md R150; D9). -/
def pushWord (s : State) (v : Word) : Except Fault State :=
  match memWrite s s.sp v with
  | .ok t => .ok (t.setSp (s.sp - 1))
  | .error f => .error f

/-- A pop: the word at `sp + 1`, and the state with `sp` incremented modulo 2^16 (R150; D9). -/
def popWord (s : State) : Except Fault (Word × State) :=
  match memRead s (s.sp + 1) with
  | .ok v => .ok (v, s.setSp (s.sp + 1))
  | .error f => .error f

/-- The first half of every instruction: `ir <- MemRead(pc, 1); pc <- pc + 1` modulo 2^16 (R11, R25, R26). -/
def fetch (s : State) : Except Fault State :=
  match memRead s s.pc with
  | .ok w => .ok { s with ir := w, pc := s.pc + 1 }
  | .error f => .error f

/-- What a reset leaves in the registers whose reset value the spec does not state (R38: a draw each). -/
structure ResetDraw where
  sp : Word
  ir : Word
  flags : Flags
deriving DecidableEq, Repr

/-- The reset event (spec/70_reset_and_hazards.md R230, R232): an action of the host between two steps or while halted (R231;
D14, log entry 15). Memory is kept; SP, IR and the flags come out as any values, which the host's draw gives. -/
def processorReset (draw : ResetDraw) (s : State) : State where
  regs := Vector.replicate 16 Config.resetGpr
  pc := 0
  sp := draw.sp
  ir := draw.ir
  flags := draw.flags
  mem := s.mem
  halted := false

end Sys2Proof.Machine
end

