-- ==== Sys2Proof/Machine/Flags.lean ====
section
/-!
DEFINITION. The flag functions (spec/40_arith_logic.md R100 to R104). The formulas of N, Z, C after an addition, and V are the
spec's, supplied from general knowledge (D11, log entry 8); C after a subtraction is the OPEN parameter (D10, log entry 7).
-/

namespace Sys2Proof.Machine

/-- N: bit 15 of the result (R101). -/
def negativeFlag (r : Word) : Bool := r.msb

/-- Z: is the result 0000h (R101). -/
def zeroFlag (r : Word) : Bool := r == 0

/-- C after an addition: the carry out of bit 15 (R102). -/
def addCarry (a b : Word) : Bool := decide (65536 ≤ a.toNat + b.toNat)

/-- C after the subtraction `a - b`, under one reading of `SUB_CARRY` (R103). -/
def subCarryUnder : SubCarry → Word → Word → Bool
  | .notBorrow, a, b => decide (b.toNat ≤ a.toNat)
  | .borrow, a, b => decide (a.toNat < b.toNat)

/-- C after a subtraction: under the reading that `Config` leaves open (R103). -/
def subCarry (a b : Word) : Bool := subCarryUnder Config.subCarry a b

/-- V after an addition, by the sign formula (R104). -/
def addOverflow (a b : Word) : Bool := a.msb == b.msb && (a + b).msb != a.msb

/-- V after a subtraction, by the sign formula (R104). -/
def subOverflow (a b : Word) : Bool := a.msb != b.msb && (a - b).msb != a.msb

/-- The mark `lnz`: N and Z from the result, C and V kept (R100). -/
def State.setNZ (s : State) (r : Word) : State :=
  { s with flags := { s.flags with n := negativeFlag r, z := zeroFlag r } }

/-- The marks `lnz ; lcv`: all four flags (R100). -/
def State.setNZCV (s : State) (r : Word) (c v : Bool) : State :=
  { s with flags := ⟨negativeFlag r, zeroFlag r, c, v⟩ }

end Sys2Proof.Machine
end

