-- ==== Sys2Proof/Machine/Operands.lean ====
section
/-!
DEFINITION. The operand forms: immediates and displacements (spec/30_encoding.md R68 to R71), the one data address form
(spec/42_load_store.md R140), and the targets of jumps and calls (spec/44_jumps.md R162).
-/

namespace Sys2Proof.Machine

/-- `zext_16(imm8)` (R9, R68). -/
def zextImm8 (c : Byte) : Word := c.zeroExtend 16

/-- `sext_16(disp10)` (R9, R70). -/
def sextDisp10 (d : BitVec 10) : Word := d.signExtend 16

/-- `sext_16(disp12)` (R9, R71). -/
def sextDisp12 (d : BitVec 12) : Word := d.signExtend 16

/-- `v[15:8] ++ c`: the low byte replaced (R69). -/
def replaceLow (v : Word) (c : Byte) : Word := v.extractLsb' 8 8 ++ c

/-- `c ++ v[7:0]`: the high byte replaced (R69). -/
def replaceHigh (v : Word) (c : Byte) : Word := c ++ v.extractLsb' 0 8

/-- `ea = (x[rs1] + x[rs2]) mod 2^16` (R140, R45). -/
def effectiveAddress (s : State) (rs1 rs2 : Reg) : Word := s.reg rs1 + s.reg rs2

/-- `(pc + offset) mod 2^16`, `pc` being the incremented PC (R162, R26). -/
def relativeTarget (s : State) (offset : Word) : Word := s.pc + offset

end Sys2Proof.Machine
end

