-- ==== Sys2Proof/Machine/Arith.lean ====
section
/-!
DEFINITION. Arithmetic, logic and shifts (spec/40_arith_logic.md R105 to R117): ADD, SUB, AND, OR, XOR, ADDI, SUBI, SL0, SL1,
SR0, SR1, NOT. Sources are read before the target is written (spec/10_state.md R22); overflow never stops (R105).
-/

namespace Sys2Proof.Machine

/-- Write the sum and all four flags (R106, R111). -/
def writeSum (rt : Reg) (a b : Word) (s : State) : Host.Outcome State Fault Refusal :=
  .next ((s.setReg rt (a + b)).setNZCV (a + b) (addCarry a b) (addOverflow a b))

/-- Write the difference and all four flags (R107, R112). -/
def writeDifference (rt : Reg) (a b : Word) (s : State) : Host.Outcome State Fault Refusal :=
  .next ((s.setReg rt (a - b)).setNZCV (a - b) (subCarry a b) (subOverflow a b))

/-- Write a result with N and Z; C and V stay (R108 to R110, R113 to R117). -/
def writeLogic (rt : Reg) (r : Word) (s : State) : Host.Outcome State Fault Refusal :=
  .next ((s.setReg rt r).setNZ r)

/-- ADD (R106). -/
def execAdd (rt rs1 rs2 : Reg) (s : State) : Host.Outcome State Fault Refusal :=
  writeSum rt (s.reg rs1) (s.reg rs2) s

/-- SUB: first source minus second (R107). -/
def execSub (rt rs1 rs2 : Reg) (s : State) : Host.Outcome State Fault Refusal :=
  writeDifference rt (s.reg rs1) (s.reg rs2) s

/-- AND (R108). -/
def execAnd (rt rs1 rs2 : Reg) (s : State) : Host.Outcome State Fault Refusal :=
  writeLogic rt (s.reg rs1 &&& s.reg rs2) s

/-- OR (R109). -/
def execOr (rt rs1 rs2 : Reg) (s : State) : Host.Outcome State Fault Refusal :=
  writeLogic rt (s.reg rs1 ||| s.reg rs2) s

/-- XOR (R110). -/
def execXor (rt rs1 rs2 : Reg) (s : State) : Host.Outcome State Fault Refusal :=
  writeLogic rt (s.reg rs1 ^^^ s.reg rs2) s

/-- ADDI: the target plus a zero-extended constant (R111). -/
def execAddi (rt : Reg) (imm8 : Byte) (s : State) : Host.Outcome State Fault Refusal :=
  writeSum rt (s.reg rt) (zextImm8 imm8) s

/-- SUBI: the target minus a zero-extended constant (R112). -/
def execSubi (rt : Reg) (imm8 : Byte) (s : State) : Host.Outcome State Fault Refusal :=
  writeDifference rt (s.reg rt) (zextImm8 imm8) s

/-- `v[14:0] ++ b`: one bit to the left, `b` entering at bit 0. -/
def shiftLeftOne (v : Word) (b : BitVec 1) : Word := v.extractLsb' 0 15 ++ b

/-- `b ++ v[15:1]`: one bit to the right, `b` entering at bit 15. -/
def shiftRightOne (b : BitVec 1) (v : Word) : Word := b ++ v.extractLsb' 1 15

/-- SL0 (R113). -/
def execSl0 (rt rs1 : Reg) (s : State) : Host.Outcome State Fault Refusal :=
  writeLogic rt (shiftLeftOne (s.reg rs1) 0) s

/-- SL1 (R114). -/
def execSl1 (rt rs1 : Reg) (s : State) : Host.Outcome State Fault Refusal :=
  writeLogic rt (shiftLeftOne (s.reg rs1) 1) s

/-- SR0 (R115). -/
def execSr0 (rt rs1 : Reg) (s : State) : Host.Outcome State Fault Refusal :=
  writeLogic rt (shiftRightOne 0 (s.reg rs1)) s

/-- SR1 (R116). -/
def execSr1 (rt rs1 : Reg) (s : State) : Host.Outcome State Fault Refusal :=
  writeLogic rt (shiftRightOne 1 (s.reg rs1)) s

/-- NOT (R117). -/
def execNot (rt rs1 : Reg) (s : State) : Host.Outcome State Fault Refusal :=
  writeLogic rt (~~~ s.reg rs1) s

end Sys2Proof.Machine
end

