-- ==== Sys2Proof/Machine/ConstLoad.lean ====
section
/-!
DEFINITION. The half-word constant loads LDL and LDH (spec/41_const_load.md R130 to R132). Neither writes a flag (R130; C1,
log entry 18).
-/

namespace Sys2Proof.Machine

/-- LDL: `x[rt] <- x[rt][15:8] ++ imm8` (R131). -/
def execLdl (rt : Reg) (imm8 : Byte) (s : State) : Host.Outcome State Fault Refusal :=
  .next (s.setReg rt (replaceLow (s.reg rt) imm8))

/-- LDH: `x[rt] <- imm8 ++ x[rt][7:0]` (R132). -/
def execLdh (rt : Reg) (imm8 : Byte) (s : State) : Host.Outcome State Fault Refusal :=
  .next (s.setReg rt (replaceHigh (s.reg rt) imm8))

end Sys2Proof.Machine
end

