-- ==== Sys2Proof/Machine/Control.lean ====
section
/-!
DEFINITION. NOP and HALT (spec/46_nop_halt.md R200 to R202).
-/

namespace Sys2Proof.Machine

/-- NOP: nothing beyond the fetch (R200). -/
def execNop (s : State) : Host.Outcome State Fault Refusal := .next s

/-- HALT: `halted <- true` (R201). -/
def execHalt (s : State) : Host.Outcome State Fault Refusal := .next s.setHalted

end Sys2Proof.Machine
end

