-- ==== Sys2Proof/Machine/Jumps.lean ====
section
/-!
DEFINITION. The fifteen jumps (spec/44_jumps.md R160 to R177): relative or absolute through a register, or relative with a
10-bit displacement; always, or when N, Z, C or V is 1. `pc` is already the incremented PC (spec/00_scope.md R11).
-/

namespace Sys2Proof.Machine

/-- A jump to `target`, taken when `taken`; not taken, it has no effect beyond the fetch (R160, R161). -/
def jumpWhen (taken : Bool) (target : Word) (s : State) : Host.Outcome State Fault Refusal :=
  .next (if taken then s.setPc target else s)

/-- JMPR: relative through a register, always (R163). -/
def execJmpr (rs1 : Reg) (s : State) : Host.Outcome State Fault Refusal :=
  jumpWhen true (relativeTarget s (s.reg rs1)) s

/-- JMPNR: relative through a register, if N (R164). -/
def execJmpnr (rs1 : Reg) (s : State) : Host.Outcome State Fault Refusal :=
  jumpWhen s.flags.n (relativeTarget s (s.reg rs1)) s

/-- JMPZR: relative through a register, if Z (R165). -/
def execJmpzr (rs1 : Reg) (s : State) : Host.Outcome State Fault Refusal :=
  jumpWhen s.flags.z (relativeTarget s (s.reg rs1)) s

/-- JMPCR: relative through a register, if C (R166). -/
def execJmpcr (rs1 : Reg) (s : State) : Host.Outcome State Fault Refusal :=
  jumpWhen s.flags.c (relativeTarget s (s.reg rs1)) s

/-- JMPVR: relative through a register, if V (R167). -/
def execJmpvr (rs1 : Reg) (s : State) : Host.Outcome State Fault Refusal :=
  jumpWhen s.flags.v (relativeTarget s (s.reg rs1)) s

/-- JMP: absolute through a register, always (R168). -/
def execJmp (rs1 : Reg) (s : State) : Host.Outcome State Fault Refusal :=
  jumpWhen true (s.reg rs1) s

/-- JMPN: absolute through a register, if N (R169). -/
def execJmpn (rs1 : Reg) (s : State) : Host.Outcome State Fault Refusal :=
  jumpWhen s.flags.n (s.reg rs1) s

/-- JMPZ: absolute through a register, if Z (R170). -/
def execJmpz (rs1 : Reg) (s : State) : Host.Outcome State Fault Refusal :=
  jumpWhen s.flags.z (s.reg rs1) s

/-- JMPC: absolute through a register, if C (R171). -/
def execJmpc (rs1 : Reg) (s : State) : Host.Outcome State Fault Refusal :=
  jumpWhen s.flags.c (s.reg rs1) s

/-- JMPV: absolute through a register, if V (R172). -/
def execJmpv (rs1 : Reg) (s : State) : Host.Outcome State Fault Refusal :=
  jumpWhen s.flags.v (s.reg rs1) s

/-- JMPD: relative with a displacement, always (R173). -/
def execJmpd (disp10 : BitVec 10) (s : State) : Host.Outcome State Fault Refusal :=
  jumpWhen true (relativeTarget s (sextDisp10 disp10)) s

/-- JMPND: relative with a displacement, if N (R174). -/
def execJmpnd (disp10 : BitVec 10) (s : State) : Host.Outcome State Fault Refusal :=
  jumpWhen s.flags.n (relativeTarget s (sextDisp10 disp10)) s

/-- JMPZD: relative with a displacement, if Z (R175). -/
def execJmpzd (disp10 : BitVec 10) (s : State) : Host.Outcome State Fault Refusal :=
  jumpWhen s.flags.z (relativeTarget s (sextDisp10 disp10)) s

/-- JMPCD: relative with a displacement, if C (R176). -/
def execJmpcd (disp10 : BitVec 10) (s : State) : Host.Outcome State Fault Refusal :=
  jumpWhen s.flags.c (relativeTarget s (sextDisp10 disp10)) s

/-- JMPVD: relative with a displacement, if V (R177). -/
def execJmpvd (disp10 : BitVec 10) (s : State) : Host.Outcome State Fault Refusal :=
  jumpWhen s.flags.v (relativeTarget s (sextDisp10 disp10)) s

end Sys2Proof.Machine
end

