-- ==== Sys2Proof/Machine/LoadStore.lean ====
section
/-!
DEFINITION. LD and ST (spec/42_load_store.md R140 to R142). Neither writes a flag (R141, R142; C1, log entry 18).
-/

namespace Sys2Proof.Machine

/-- LD: `x[rt] <- MemRead(ea, 1)`, the address formed from the old registers (R141). -/
def execLd (rt rs1 rs2 : Reg) (s : State) : Host.Outcome State Fault Refusal :=
  match memRead s (effectiveAddress s rs1 rs2) with
  | .ok v => .next (s.setReg rt v)
  | .error f => .fault f

/-- ST: `MemWrite(ea, 1, x[rt])` (R142). -/
def execSt (rt rs1 rs2 : Reg) (s : State) : Host.Outcome State Fault Refusal :=
  match memWrite s (effectiveAddress s rs1 rs2) (s.reg rt) with
  | .ok t => .next t
  | .error f => .fault f

end Sys2Proof.Machine
end

