-- ==== Sys2Proof/Machine/Stack.lean ====
section
/-!
DEFINITION. LDSP, PUSH and POP (spec/43_stack.md R150 to R154). Nothing is checked: the accesses are ordinary ones (R151; D19).
-/

namespace Sys2Proof.Machine

/-- LDSP: `sp <- x[rs1]` (R152). -/
def execLdsp (rs1 : Reg) (s : State) : Host.Outcome State Fault Refusal :=
  .next (s.setSp (s.reg rs1))

/-- PUSH: the register goes to the old `sp`, then `sp` is decremented (R153). -/
def execPush (rt : Reg) (s : State) : Host.Outcome State Fault Refusal :=
  match pushWord s (s.reg rt) with
  | .ok t => .next t
  | .error f => .fault f

/-- POP: the register takes the word at `sp + 1`, and `sp` is incremented (R154). -/
def execPop (rt : Reg) (s : State) : Host.Outcome State Fault Refusal :=
  match popWord s with
  | .ok (v, t) => .next (t.setReg rt v)
  | .error f => .fault f

end Sys2Proof.Machine
end

