-- ==== Sys2Proof/Machine/Subroutine.lean ====
section
/-!
DEFINITION. The calls and the return (spec/45_subroutine.md R190 to R194). All three calls are unconditional (C6); the word
pushed is the incremented PC.
-/

namespace Sys2Proof.Machine

/-- Push the incremented PC and go to `target`, which is formed from the same PC (R190; D24, log entry 17). -/
def callTo (target : Word) (s : State) : Host.Outcome State Fault Refusal :=
  match pushWord s s.pc with
  | .ok t => .next (t.setPc target)
  | .error f => .fault f

/-- JSRR: relative through a register (R191). -/
def execJsrr (rs1 : Reg) (s : State) : Host.Outcome State Fault Refusal :=
  callTo (relativeTarget s (s.reg rs1)) s

/-- JSR: absolute through a register (R192). -/
def execJsr (rs1 : Reg) (s : State) : Host.Outcome State Fault Refusal :=
  callTo (s.reg rs1) s

/-- JSRD: relative with a 12-bit displacement (R193). -/
def execJsrd (disp12 : BitVec 12) (s : State) : Host.Outcome State Fault Refusal :=
  callTo (relativeTarget s (sextDisp12 disp12)) s

/-- RTS: PC takes the word at `sp + 1`, and `sp` is incremented (R194). -/
def execRts (s : State) : Host.Outcome State Fault Refusal :=
  match popWord s with
  | .ok (v, t) => .next (t.setPc v)
  | .error f => .fault f

end Sys2Proof.Machine
end

