-- ==== Sys2Proof/Machine/Dispatch.lean ====
section
/-!
DEFINITION. The effect of one instruction on the state its fetch has left: one arm per constructor of Instr.
-/

namespace Sys2Proof.Machine

def exec (i : Instr) (s : State) : Host.Outcome State Fault Refusal :=
  match i with
  | .add rt rs1 rs2 => Sys2Proof.Machine.execAdd rt rs1 rs2 s
  | .sub rt rs1 rs2 => Sys2Proof.Machine.execSub rt rs1 rs2 s
  | .and rt rs1 rs2 => Sys2Proof.Machine.execAnd rt rs1 rs2 s
  | .or rt rs1 rs2 => Sys2Proof.Machine.execOr rt rs1 rs2 s
  | .xor rt rs1 rs2 => Sys2Proof.Machine.execXor rt rs1 rs2 s
  | .addi rt imm8 => Sys2Proof.Machine.execAddi rt imm8 s
  | .subi rt imm8 => Sys2Proof.Machine.execSubi rt imm8 s
  | .ldl rt imm8 => Sys2Proof.Machine.execLdl rt imm8 s
  | .ldh rt imm8 => Sys2Proof.Machine.execLdh rt imm8 s
  | .ld rt rs1 rs2 => Sys2Proof.Machine.execLd rt rs1 rs2 s
  | .st rt rs1 rs2 => Sys2Proof.Machine.execSt rt rs1 rs2 s
  | .sl0 rt rs1 => Sys2Proof.Machine.execSl0 rt rs1 s
  | .sl1 rt rs1 => Sys2Proof.Machine.execSl1 rt rs1 s
  | .sr0 rt rs1 => Sys2Proof.Machine.execSr0 rt rs1 s
  | .sr1 rt rs1 => Sys2Proof.Machine.execSr1 rt rs1 s
  | .not rt rs1 => Sys2Proof.Machine.execNot rt rs1 s
  | .nop => Sys2Proof.Machine.execNop s
  | .halt => Sys2Proof.Machine.execHalt s
  | .ldsp rs1 => Sys2Proof.Machine.execLdsp rs1 s
  | .rts => Sys2Proof.Machine.execRts s
  | .pop rt => Sys2Proof.Machine.execPop rt s
  | .push rt => Sys2Proof.Machine.execPush rt s
  | .jmpr rs1 => Sys2Proof.Machine.execJmpr rs1 s
  | .jmpnr rs1 => Sys2Proof.Machine.execJmpnr rs1 s
  | .jmpzr rs1 => Sys2Proof.Machine.execJmpzr rs1 s
  | .jmpcr rs1 => Sys2Proof.Machine.execJmpcr rs1 s
  | .jmpvr rs1 => Sys2Proof.Machine.execJmpvr rs1 s
  | .jmp rs1 => Sys2Proof.Machine.execJmp rs1 s
  | .jmpn rs1 => Sys2Proof.Machine.execJmpn rs1 s
  | .jmpz rs1 => Sys2Proof.Machine.execJmpz rs1 s
  | .jmpc rs1 => Sys2Proof.Machine.execJmpc rs1 s
  | .jmpv rs1 => Sys2Proof.Machine.execJmpv rs1 s
  | .jsrr rs1 => Sys2Proof.Machine.execJsrr rs1 s
  | .jsr rs1 => Sys2Proof.Machine.execJsr rs1 s
  | .jmpd disp10 => Sys2Proof.Machine.execJmpd disp10 s
  | .jmpnd disp10 => Sys2Proof.Machine.execJmpnd disp10 s
  | .jmpzd disp10 => Sys2Proof.Machine.execJmpzd disp10 s
  | .jmpcd disp10 => Sys2Proof.Machine.execJmpcd disp10 s
  | .jmpvd disp10 => Sys2Proof.Machine.execJmpvd disp10 s
  | .jsrd disp12 => Sys2Proof.Machine.execJsrd disp12 s

end Sys2Proof.Machine
end

