-- ==== Sys2Proof/Machine/Step.lean ====
section
/-!
DEFINITION. One step of the machine (spec/00_scope.md R11) and the host's way to place an instruction.
-/

namespace Sys2Proof.Machine

/-- One instruction: fetch, decode, perform (R11). An unassigned word is the model fault of R211, raised after the fetch.
While halted the processor changes nothing, for ever (R33, R202; log entry 14). -/
def step (s : State) : Host.Outcome State Fault Refusal :=
  if s.halted then .next s
  else
    match fetch s with
    | .error f => .fault f
    | .ok t =>
      match decode t.ir with
      | .ok i => exec i t
      | .error _ => .fault (.illegalInstruction t.ir)

/-- `s` with the word the host numbers as `w` stored where `step` fetches next, and running (log entry 19). -/
def State.withFetchWord (s : State) (nbits w : Nat) : State :=
  { s with mem := s.mem.writeWord s.pc (tableWord nbits w), halted := false }

end Sys2Proof.Machine
end

