-- ==== Sys2Proof/Machine/Assembly.lean ====
section
/-!
DEFINITION. The written form of an instruction (spec/30_encoding.md R78, R79): mnemonic, operands target first, registers as
`R0` to `R15`, an 8-bit constant as `#` two hexadecimal digits `H`. The form of a displacement is not stated; it is written
here as a signed decimal number (D25; DESIGN CHOICE, log entry 24). Labels and directives are not described (R80).
-/

namespace Sys2Proof.Machine

/-- One hexadecimal digit, upper case. -/
def hexDigit (d : BitVec 4) : Char :=
  if d.toNat < 10 then Char.ofNat (48 + d.toNat) else Char.ofNat (55 + d.toNat)

/-- `Rn`, in decimal (R21, R79). -/
def regName (r : Reg) : String := "R" ++ toString r.toNat

/-- `#xxH` (R79). -/
def constText (c : Byte) : String :=
  "#" ++ String.ofList [hexDigit (c.extractLsb' 4 4), hexDigit (c.extractLsb' 0 4)] ++ "H"

/-- A displacement as a signed decimal number of words. -/
def dispText (d : Int) : String := toString d

/-- Operands separated by commas. -/
def operandsText : List String → String
  | [] => ""
  | [a] => " " ++ a
  | a :: rest => " " ++ a ++ rest.foldl (fun text b => text ++ "," ++ b) ""

/-- The operands of an instruction, in assembly order (R78). -/
def operandTexts : Instr → List String
  | .add rt rs1 rs2 | .sub rt rs1 rs2 | .and rt rs1 rs2 | .or rt rs1 rs2 | .xor rt rs1 rs2 | .ld rt rs1 rs2
  | .st rt rs1 rs2 => [regName rt, regName rs1, regName rs2]
  | .addi rt c | .subi rt c | .ldl rt c | .ldh rt c => [regName rt, constText c]
  | .sl0 rt rs1 | .sl1 rt rs1 | .sr0 rt rs1 | .sr1 rt rs1 | .not rt rs1 => [regName rt, regName rs1]
  | .nop | .halt | .rts => []
  | .pop rt | .push rt => [regName rt]
  | .ldsp rs1 | .jmpr rs1 | .jmpnr rs1 | .jmpzr rs1 | .jmpcr rs1 | .jmpvr rs1 | .jmp rs1 | .jmpn rs1 | .jmpz rs1
  | .jmpc rs1 | .jmpv rs1 | .jsrr rs1 | .jsr rs1 => [regName rs1]
  | .jmpd d | .jmpnd d | .jmpzd d | .jmpcd d | .jmpvd d => [dispText d.toInt]
  | .jsrd d => [dispText d.toInt]

/-- The assembly line of an instruction (R78). -/
def asmText (i : Instr) : String := i.mnemonic ++ operandsText (operandTexts i)

end Sys2Proof.Machine
end

