-- ==== Sys2Proof/Machine/ObjectText.lean ====
section
/-!
DEFINITION. The text object format that the test bench reads (spec/70_reset_and_hazards.md R234): lines "xxxx yyyy", an
address and a word in four upper-case hexadecimal digits each, then perhaps a comment after `;`. Loading an image is the
host's act before a run (R232, R235; log entries 19, 25).
-/

namespace Sys2Proof.Machine

/-- The value of an upper-case hexadecimal digit. -/
def hexValue (ch : Char) : Option (BitVec 4) :=
  if 48 ≤ ch.toNat ∧ ch.toNat ≤ 57 then some (BitVec.ofNat 4 (ch.toNat - 48))
  else if 65 ≤ ch.toNat ∧ ch.toNat ≤ 70 then some (BitVec.ofNat 4 (ch.toNat - 55))
  else none

/-- Four digits as a word. -/
def hexWord (a b c d : Char) : Option Word :=
  match hexValue a, hexValue b, hexValue c, hexValue d with
  | some p, some q, some r, some t => some (p ++ q ++ r ++ t)
  | _, _, _, _ => none

/-- What may follow the nine characters: blanks, and a comment after `;`. -/
def lineTail : List Char → Bool
  | [] => true
  | ch :: rest => if ch = ';' then true else ch = ' ' && lineTail rest

/-- One line of an object file: the address and the word it sets there (R234). -/
def parseObjectLine : List Char → Option (Word × Word)
  | a :: b :: c :: d :: sep :: e :: f :: g :: h :: rest =>
    if sep = ' ' ∧ lineTail rest then
      match hexWord a b c d, hexWord e f g h with
      | some address, some word => some (address, word)
      | _, _ => none
    else none
  | _ => none

/-- Four upper-case digits of a word. -/
def wordDigits (w : Word) : List Char :=
  [hexDigit (fieldDigit w 12), hexDigit (fieldDigit w 8), hexDigit (fieldDigit w 4), hexDigit (fieldDigit w 0)]
where
  fieldDigit (w : Word) (start : Nat) : BitVec 4 := w.extractLsb' start 4

/-- The line that sets `word` at `address`. -/
def objectLine (address word : Word) : List Char := wordDigits address ++ ' ' :: wordDigits word

/-- A whole object file, line by line; none where a line is not of the form. -/
def parseObject : List (List Char) → Option (List (Word × Word))
  | [] => some []
  | line :: rest =>
    match parseObjectLine line, parseObject rest with
    | some entry, some entries => some (entry :: entries)
    | _, _ => none

/-- `MEM_INIT[xxxx] = yyyy` for each line, in order; nothing else changes (R234, R232). -/
def loadImage : List (Word × Word) → State → State
  | [], s => s
  | (address, word) :: rest, s => loadImage rest { s with mem := s.mem.writeWord address word }

end Sys2Proof.Machine
end

