-- ==== Sys2Proof/Machine/Timing.lean ====
section
/-!
DEFINITION. Clock cycles (spec/70_reset_and_hazards.md R250, R251): the counts of Table 1 (cycles), which include the fetch.
They belong to the suggested organisation; no other definition of the ISA depends on them (log entry 21).
-/

namespace Sys2Proof.Machine

/-- A conditional jump: 3 cycles not taken, 4 taken (R161, R250). -/
def jumpCycles (taken : Bool) : Nat := if taken then 4 else 3

/-- The cycles an instruction takes with the flags as they stand; HALT's "2+" is its fetch and its first halt cycle (R250). -/
def cyclesOf (i : Instr) (f : Flags) : Nat :=
  match i with
  | .add _ _ _ | .sub _ _ _ | .and _ _ _ | .or _ _ _ | .xor _ _ _ => 4
  | .addi _ _ | .subi _ _ | .ldl _ _ | .ldh _ _ | .ld _ _ _ | .st _ _ _ => 4
  | .sl0 _ _ | .sl1 _ _ | .sr0 _ _ | .sr1 _ _ | .not _ _ => 4
  | .nop => 3
  | .halt => 2
  | .ldsp _ | .rts | .pop _ | .push _ => 4
  | .jmpr _ | .jmp _ | .jmpd _ => 4
  | .jmpnr _ | .jmpn _ | .jmpnd _ => jumpCycles f.n
  | .jmpzr _ | .jmpz _ | .jmpzd _ => jumpCycles f.z
  | .jmpcr _ | .jmpc _ | .jmpcd _ => jumpCycles f.c
  | .jmpvr _ | .jmpv _ | .jmpvd _ => jumpCycles f.v
  | .jsrr _ | .jsr _ | .jsrd _ => 4

/-- The cycles of the next step: none where it does not complete or the processor is halted. -/
def stepCycles (s : State) : Nat :=
  if s.halted then 0
  else
    match fetch s with
    | .error _ => 0
    | .ok t =>
      match decode t.ir with
      | .ok i => cyclesOf i t.flags
      | .error _ => 0

/-- The cycles of the next `k` steps, as far as they complete. -/
def runCycles : Nat → State → Nat
  | 0, _ => 0
  | k + 1, s =>
    match step s with
    | .next t => stepCycles s + runCycles k t
    | .fault _ => 0
    | .refused _ => 0

end Sys2Proof.Machine
end

