-- ==== Sys2Proof/Machine/Organisation.lean ====
section
/-!
DEFINITION. The suggested organisation (spec/70_reset_and_hazards.md R253 to R257): the same architectural state, the
temporary registers RA, RB, RALU, the 13-state control unit and its control signals, one clock cycle at a time. It is one
possible implementation (spec/00_scope.md R4); `step` does not depend on it. What the spec reconstructs or lacks (the
transitions, the write enables, the register bank's enable and data output) is log entries 22 and 26 to 30.
-/

namespace Sys2Proof.Machine

/-- The class of an instruction, whatever the flags (spec/30_encoding.md R77). -/
def instrClass (i : Instr) : InstrClass :=
  match i with
  | .add _ _ _ => .add
  | .sub _ _ _ => .sub
  | .and _ _ _ => .andI
  | .or _ _ _ => .orI
  | .xor _ _ _ => .xorI
  | .addi _ _ => .addi
  | .subi _ _ => .subi
  | .ldl _ _ => .ldl
  | .ldh _ _ => .ldh
  | .ld _ _ _ => .ld
  | .st _ _ _ => .st
  | .sl0 _ _ => .sl0
  | .sl1 _ _ => .sl1
  | .sr0 _ _ => .sr0
  | .sr1 _ _ => .sr1
  | .not _ _ => .notI
  | .nop => .nop
  | .halt => .halt
  | .ldsp _ => .ldsp
  | .rts => .rts
  | .pop _ => .pop
  | .push _ => .push
  | .jmpr _ => .rjump
  | .jmpnr _ => .rjump
  | .jmpzr _ => .rjump
  | .jmpcr _ => .rjump
  | .jmpvr _ => .rjump
  | .jmp _ => .jump
  | .jmpn _ => .jump
  | .jmpz _ => .jump
  | .jmpc _ => .jump
  | .jmpv _ => .jump
  | .jmpd _ => .djump
  | .jmpnd _ => .djump
  | .jmpzd _ => .djump
  | .jmpcd _ => .djump
  | .jmpvd _ => .djump
  | .jsrr _ => .jsrr
  | .jsr _ => .jsr
  | .jsrd _ => .jsrd

/-- Does the decoder recognise the class of an instruction: a conditional jump only when the flag it tests is 1 (R77)? -/
def recognised (i : Instr) (f : Flags) : Bool :=
  match i with
  | .jmpnr _ | .jmpn _ | .jmpnd _ => f.n
  | .jmpzr _ | .jmpz _ | .jmpzd _ => f.z
  | .jmpcr _ | .jmpc _ | .jmpcd _ => f.c
  | .jmpvr _ | .jmpv _ | .jmpvd _ => f.v
  | .add _ _ _ | .sub _ _ _ | .and _ _ _ | .or _ _ _ | .xor _ _ _ | .addi _ _ | .subi _ _ | .ldl _ _ | .ldh _ _ => true
  | .ld _ _ _ | .st _ _ _ | .sl0 _ _ | .sl1 _ _ | .sr0 _ _ | .sr1 _ _ | .not _ _ | .nop | .halt => true
  | .ldsp _ | .rts | .pop _ | .push _ | .jmpr _ | .jmp _ | .jmpd _ | .jsrr _ | .jsr _ | .jsrd _ => true

/-- The class the decoder recognises, with the flags as they stand (R77): it chooses the FSM's next state. -/
def classOf (i : Instr) (f : Flags) : Option InstrClass :=
  if recognised i f then some (instrClass i) else none

/-- `inst_la1`: type 1 logic or arithmetic, unary or binary (spec/40_arith_logic.md R118). -/
def isLa1 (c : InstrClass) : Bool :=
  match c with
  | .add | .sub | .andI | .orI | .xorI | .notI | .sl0 | .sr0 | .sl1 | .sr1 => true
  | _ => false

/-- `inst_la2`: type 2 logic or arithmetic, one source register and a constant (R118, R133). -/
def isLa2 (c : InstrClass) : Bool :=
  match c with
  | .addi | .subi | .ldl | .ldh => true
  | _ => false

/-- Which value goes out on the data bus in a write cycle (spec/20_memory.md R56): the second read port in Sst, RB in Spush,
PC in Ssbrt. The source names no signal for it. -/
inductive DataOut where
  | readPort | rb | pc
deriving DecidableEq, Repr

/-- A microinstruction: the 18 control signals of one clock cycle (R256). Nothing in the datapath reads `wFlag`, whose role the
source does not say (N33, log entry 28); `wBank` (the register bank's enable, which the source does not list) and `dataOut`
are the model's own (log entry 22). -/
structure Microinstruction where
  wPC : Bool
  wSP : Bool
  wIR : Bool
  wAB : Bool
  wALU : Bool
  wFlag : Bool
  wnz : Bool
  wcv : Bool
  wBank : Bool
  ce : Bool
  rw : Bool
  mpc : BitVec 2
  msp : Bool
  mad : BitVec 2
  mreg : Bool
  ms2 : Bool
  ma : Bool
  mb : BitVec 2
  alu : Option InstrClass
  dataOut : DataOut
deriving DecidableEq, Repr

/-- `mpc`: 10 in Sfetch (PC + 1), 00 in Srts (memory), 01 otherwise (RALU) (R257). -/
def signalMpc (st : FsmState) : BitVec 2 :=
  match st with
  | .sfetch => 2
  | .srts => 0
  | _ => 1

/-- `msp`: 1 for the calls and PUSH (SP - 1), 0 otherwise (RALU) (R257). -/
def signalMsp (c : Option InstrClass) : Bool :=
  match c with
  | some .jsrr | some .jsr | some .jsrd | some .push => true
  | _ => false

/-- `mad`: 10 in Spush and Ssbrt (SP), 01 in Sfetch (PC), 00 otherwise (RALU) (R257). -/
def signalMad (st : FsmState) : BitVec 2 :=
  match st with
  | .spush | .ssbrt => 2
  | .sfetch => 1
  | _ => 0

/-- `mreg`: 1 for LD and POP (memory), 0 otherwise (RALU) (R257). -/
def signalMreg (c : Option InstrClass) : Bool :=
  match c with
  | some .ld | some .pop => true
  | _ => false

/-- `ms2`: 1 for type 2, for PUSH and in Sst (second read port on `ir[11:8]`), 0 otherwise (`ir[3:0]`) (R257). -/
def signalMs2 (st : FsmState) (c : Option InstrClass) : Bool :=
  c.any isLa2 || c == some .push || st == .sst

/-- `ma`: 1 for type 2, the displacement jumps and JSRD (IR), 0 otherwise (RA) (R257). -/
def signalMa (c : Option InstrClass) : Bool :=
  c.any isLa2 || c == some .djump || c == some .jsrd

/-- `mb`: 01 for RTS and POP (SP), 10 for the jumps and calls (PC), 00 otherwise (RB) (R257). -/
def signalMb (c : Option InstrClass) : BitVec 2 :=
  match c with
  | some .rts | some .pop => 1
  | some .rjump | some .jump | some .djump | some .jsrr | some .jsr | some .jsrd => 2
  | _ => 0

/-- Does the third cycle write RALU? That of every class does (R254), a jump not taken included (spec/44_jumps.md R161), but
for NOP's, in which nothing is written (spec/46_nop_halt.md R203); HALT has no third cycle. -/
def writesRalu (c : InstrClass) : Bool :=
  match c with
  | .nop | .halt => false
  | _ => true

/-- The mark `lnz` as the enable `wnz` (R256). -/
def writesNZ (c : InstrClass) : Bool :=
  isLa1 c || c == .addi || c == .subi

/-- The mark `lcv` as the enable `wcv` (R256). -/
def writesCV (c : InstrClass) : Bool :=
  match c with
  | .add | .sub | .addi | .subi => true
  | _ => false

/-- The control unit's output in a state, for the class of the instruction in IR (none where the word in IR is no
instruction; R254 to R257; `ce`, `rw`: spec/20_memory.md R56). Whether that class is recognised (R77) matters to `wFlag` only:
a jump not taken computes its target as well (spec/44_jumps.md R161; DEDUCED, log entry 30). Two points are open, and
settled without effect:
- DESIGN CHOICE (log entry 26): where `ce = 0` the spec gives `rw` no value (R56; N5), and it is 0 here; in a cycle that
  writes no data `dataOut` is `readPort`.
- DESIGN CHOICE (log entry 27): in Sfetch IR still holds the previous word, and `msp`, `mreg`, `ms2`, `ma`, `mb`, `alu`
  follow that word; no register is written from what they select there. -/
def microinstruction (st : FsmState) (c : Option InstrClass) (recognisedClass : Bool) : Microinstruction where
  wPC := st == .sfetch || st == .sjmp || st == .ssbrt || st == .srts
  wSP := st == .ssbrt || st == .spush || st == .srts || st == .spop || st == .sldsp
  wIR := st == .sfetch
  wAB := st == .srreg
  wALU := st == .salu && c.any writesRalu
  wFlag := Config.wFlag st c recognisedClass
  wnz := st == .salu && c.any writesNZ
  wcv := st == .salu && c.any writesCV
  wBank := st == .swbk || st == .sld || st == .spop
  ce := st == .sfetch || st == .sld || st == .sst || st == .ssbrt || st == .spush || st == .srts || st == .spop
  rw := st == .sfetch || st == .sld || st == .srts || st == .spop
  mpc := signalMpc st
  msp := signalMsp c
  mad := signalMad st
  mreg := signalMreg c
  ms2 := signalMs2 st c
  ma := signalMa c
  mb := signalMb c
  alu := c
  dataOut := if st == .ssbrt then .pc else if st == .spush then .rb else .readPort

/-- The ALU: the operation is the instruction class itself (R256), the operands those of Table 2 (R254); for the classes that
Table 2 does not list, a free value (log entry 29). -/
def aluResult (c : InstrClass) (opA opB : Word) : Word :=
  match c with
  | .add | .ld | .st | .rjump | .jsrr => opA + opB
  | .sub => opA - opB
  | .andI => opA &&& opB
  | .orI => opA ||| opB
  | .xorI => opA ^^^ opB
  | .addi => opB + zextImm8 (fieldImm8 opA)
  | .subi => opB - zextImm8 (fieldImm8 opA)
  | .ldl => replaceLow opB (fieldImm8 opA)
  | .ldh => replaceHigh opB (fieldImm8 opA)
  | .sl0 => shiftLeftOne opA 0
  | .sl1 => shiftLeftOne opA 1
  | .sr0 => shiftRightOne 0 opA
  | .sr1 => shiftRightOne 1 opA
  | .notI => ~~~ opA
  | .ldsp | .jump | .jsr => opA
  | .rts | .pop => opB + 1
  | .djump => opB + sextDisp10 (fieldDisp10 opA)
  | .jsrd => opB + sextDisp12 (fieldDisp12 opA)
  | .nop | .halt | .push => Config.aluUnlisted c opA opB

/-- The ALU's carry and overflow; only the classes that `writesCV` names are read. -/
def aluCarryOverflow (c : InstrClass) (opA opB : Word) : Bool × Bool :=
  match c with
  | .sub => (subCarry opA opB, subOverflow opA opB)
  | .addi => (addCarry opB (zextImm8 (fieldImm8 opA)), addOverflow opB (zextImm8 (fieldImm8 opA)))
  | .subi => (subCarry opB (zextImm8 (fieldImm8 opA)), subOverflow opB (zextImm8 (fieldImm8 opA)))
  | _ => (addCarry opA opB, addOverflow opA opB)

/-- The organisation between two clock cycles: the architectural state, the temporary registers and the FSM state (R254,
R255; spec/10_state.md R34). -/
structure Organisation where
  arch : State
  ra : Word
  rb : Word
  ralu : Word
  fsm : FsmState
deriving DecidableEq, Repr

/-- The address the multiplexer `mad` puts on the bus (R257). -/
def busAddress (u : Microinstruction) (o : Organisation) : Word :=
  if u.mad = 2 then o.arch.sp else if u.mad = 1 then o.arch.pc else o.ralu

/-- The register on the second read port (R254, R257). -/
def readPort (u : Microinstruction) (s : State) : Word :=
  if u.ms2 then s.reg (fieldRt s.ir) else s.reg (fieldRs2 s.ir)

/-- The word the processor drives in a write cycle (spec/20_memory.md R56). -/
def busDataOut (u : Microinstruction) (o : Organisation) : Word :=
  match u.dataOut with
  | .readPort => readPort u o.arch
  | .rb => o.rb
  | .pc => o.arch.pc

/-- What happens on the bus in a cycle: nothing, a read, or a write, of one word (spec/20_memory.md R46, R56). -/
inductive BusCycle where
  | idle
  | read (address : Word)
  | write (address data : Word)
deriving DecidableEq, Repr

/-- The bus in the cycle of a microinstruction: `ce` says there is a transfer, `rw` which way (R46). -/
def busCycle (u : Microinstruction) (o : Organisation) : BusCycle :=
  if u.ce then
    if u.rw then .read (busAddress u o) else .write (busAddress u o) (busDataOut u o)
  else .idle

/-- The memory's side of a bus cycle: the word read (0 stands where none is, and is not used) and the state after it. -/
def memoryCycle (b : BusCycle) (s : State) : Except Fault (Word × State) :=
  match b with
  | .idle => .ok (0, s)
  | .read a =>
    match memRead s a with
    | .ok v => .ok (v, s)
    | .error f => .error f
  | .write a v =>
    match memWrite s a v with
    | .ok t => .ok (0, t)
    | .error f => .error f

/-- The datapath: one clock edge, every register written from the values of the cycle before (R254). -/
def datapath (u : Microinstruction) (o : Organisation) : Except Fault Organisation :=
  let s := o.arch
  let opA := if u.ma then s.ir else o.ra
  let opB := if u.mb = 1 then s.sp else if u.mb = 2 then s.pc else o.rb
  match memoryCycle (busCycle u o) s with
  | .error f => .error f
  | .ok (data, t) =>
    let bankData := if u.mreg then data else o.ralu
    let result := u.alu.elim o.ralu (fun c => aluResult c opA opB)
    let cv := u.alu.elim (s.flags.c, s.flags.v) (fun c => aluCarryOverflow c opA opB)
    .ok
      { arch :=
          { regs := if u.wBank then (s.setReg (fieldRt s.ir) bankData).regs else s.regs
            pc := if u.wPC then (if u.mpc = 2 then s.pc + 1 else if u.mpc = 0 then data else o.ralu) else s.pc
            sp := if u.wSP then (if u.msp then s.sp - 1 else o.ralu) else s.sp
            ir := if u.wIR then data else s.ir
            flags :=
              { n := if u.wnz then negativeFlag result else s.flags.n
                z := if u.wnz then zeroFlag result else s.flags.z
                c := if u.wcv then cv.1 else s.flags.c
                v := if u.wcv then cv.2 else s.flags.v }
            mem := t.mem
            halted := s.halted }
        ra := if u.wAB then s.reg (fieldRs1 s.ir) else o.ra
        rb := if u.wAB then readPort u s else o.rb
        ralu := if u.wALU then result else o.ralu
        fsm := o.fsm }

/-- The state after Salu, by class: the fourth cycle, or the next fetch for NOP and a jump not taken (R255). -/
def afterSalu (c : Option InstrClass) : FsmState :=
  match c with
  | none | some .nop | some .halt => .sfetch
  | some .ld => .sld
  | some .st => .sst
  | some .rjump | some .jump | some .djump => .sjmp
  | some .jsrr | some .jsr | some .jsrd => .ssbrt
  | some .push => .spush
  | some .rts => .srts
  | some .pop => .spop
  | some .ldsp => .sldsp
  | some _ => .swbk

/-- The FSM's transition, for the class recognised (R255); the one on reset is `organisationReset`. -/
def nextFsm (st : FsmState) (c : Option InstrClass) : FsmState :=
  match st with
  | .sfetch => if c = some .halt then .shalt else .srreg
  | .srreg => .salu
  | .shalt => .shalt
  | .salu => afterSalu c
  | _ => .sfetch

/-- What the control unit drives in the cycle that begins in `o`. -/
def control (o : Organisation) : Microinstruction :=
  match decode o.arch.ir with
  | .ok i => microinstruction o.fsm (some (instrClass i)) (recognised i o.arch.flags)
  | .error _ => microinstruction o.fsm none false

/-- One clock cycle. The FSM goes on by the instruction that IR holds after the cycle (in Sfetch the word just read, so that
HALT skips Srreg: R255, log entry 22) and the flags before it. A word that decodes to nothing is the model fault of R211,
met where the fetch has put it in IR (log entry 23); entering Shalt is what sets `halted` (R33). -/
def clock (o : Organisation) : Host.Outcome Organisation Fault Refusal :=
  match datapath (control o) o with
  | .error f => .fault f
  | .ok p =>
    match decode p.arch.ir with
    | .error _ => if o.fsm = .shalt then .next p else .fault (.illegalInstruction p.arch.ir)
    | .ok i =>
      let following := nextFsm o.fsm (classOf i o.arch.flags)
      .next { p with fsm := following, arch := if following = .shalt then p.arch.setHalted else p.arch }

/-- `k` clock cycles, stopping at the first fault. -/
def clocks : Nat → Organisation → Host.Outcome Organisation Fault Refusal
  | 0, o => .next o
  | k + 1, o =>
    match clock o with
    | .next p => clocks k p
    | .fault f => .fault f
    | .refused r => .refused r

/-- The organisation about to fetch, with the temporary registers holding anything (R34: they carry nothing over). -/
def atFetch (s : State) (ra rb ralu : Word) : Organisation := ⟨s, ra, rb, ralu, .sfetch⟩

/-- What a reset leaves in the registers of the organisation whose value the spec does not state: those of the architecture,
and RA, RB, RALU (R34). -/
structure OrganisationDraw where
  registers : ResetDraw
  ra : Word
  rb : Word
  ralu : Word
deriving DecidableEq, Repr

/-- The reset event on the organisation: from any state, Shalt among them, the FSM is in Sfetch (R255, R230) and the
architectural state is that of the reset event (log entries 15, 31). -/
def organisationReset (draw : OrganisationDraw) (o : Organisation) : Organisation :=
  atFetch (processorReset draw.registers o.arch) draw.ra draw.rb draw.ralu

/-- What the bus carries in the cycle that begins in `o`. -/
def busNow (o : Organisation) : BusCycle := busCycle (control o) o

/-- The bus cycles of the next `k` clocks, as far as they run. -/
def busTrace : Nat → Organisation → List BusCycle
  | 0, _ => []
  | k + 1, o =>
    busNow o :: match clock o with
    | .next p => busTrace k p
    | .fault _ => []
    | .refused _ => []

end Sys2Proof.Machine
end

