-- ==== Sys2Proof/Safety.lean ====
section
/-!
DEFINITION. What counts as a good run, and the words in which the statements say what an instruction reads, writes and keeps.
The tables of spec/10_state.md R23, R28, R30 and spec/20_memory.md R41 stand here as the spec lists them, apart from the
meanings, so that the two can be held against each other.
-/

namespace Sys2Proof.Machine

/-- The general register an instruction writes (spec/10_state.md R23: "Write Rt"). -/
def regWritten : Instr → Option Reg
  | .add rt _ _ | .sub rt _ _ | .and rt _ _ | .or rt _ _ | .xor rt _ _ => some rt
  | .addi rt _ | .subi rt _ | .ldl rt _ | .ldh rt _ | .ld rt _ _ => some rt
  | .sl0 rt _ | .sl1 rt _ | .sr0 rt _ | .sr1 rt _ | .not rt _ | .pop rt => some rt
  | _ => none

/-- The general registers an instruction reads (R23: "Read Rs1", "Read Rs2", "Read Rt as a source"). -/
def regsRead : Instr → List Reg
  | .add _ rs1 rs2 | .sub _ rs1 rs2 | .and _ rs1 rs2 | .or _ rs1 rs2 | .xor _ rs1 rs2 | .ld _ rs1 rs2 => [rs1, rs2]
  | .st rt rs1 rs2 => [rt, rs1, rs2]
  | .addi rt _ | .subi rt _ | .ldl rt _ | .ldh rt _ | .push rt => [rt]
  | .sl0 _ rs1 | .sl1 _ rs1 | .sr0 _ rs1 | .sr1 _ rs1 | .not _ rs1 | .ldsp rs1 => [rs1]
  | .jmpr rs1 | .jmpnr rs1 | .jmpzr rs1 | .jmpcr rs1 | .jmpvr rs1 => [rs1]
  | .jmp rs1 | .jmpn rs1 | .jmpz rs1 | .jmpc rs1 | .jmpv rs1 | .jsrr rs1 | .jsr rs1 => [rs1]
  | _ => []

/-- The instructions with the mark `lnz` (R30): they write N and Z. -/
def writesNZFlags : Instr → Bool
  | .add _ _ _ | .sub _ _ _ | .addi _ _ | .subi _ _ => true
  | .and _ _ _ | .or _ _ _ | .xor _ _ _ => true
  | .sl0 _ _ | .sl1 _ _ | .sr0 _ _ | .sr1 _ _ | .not _ _ => true
  | _ => false

/-- The instructions with the mark `lcv` (R30): they write C and V. -/
def writesCVFlags : Instr → Bool
  | .add _ _ _ | .sub _ _ _ | .addi _ _ | .subi _ _ => true
  | _ => false

/-- The address an instruction reads data from, in the state its fetch has left (spec/20_memory.md R41). -/
def dataReadAddress (i : Instr) (s : State) : Option Word :=
  match i with
  | .ld _ rs1 rs2 => some (effectiveAddress s rs1 rs2)
  | .pop _ | .rts => some (s.sp + 1)
  | _ => none

/-- The address an instruction writes data to, in the state its fetch has left (R41). -/
def dataWriteAddress (i : Instr) (s : State) : Option Word :=
  match i with
  | .st _ rs1 rs2 => some (effectiveAddress s rs1 rs2)
  | .push _ | .jsrr _ | .jsr _ | .jsrd _ => some s.sp
  | _ => none

/-- The instructions that can change PC after their fetch (spec/10_state.md R25): the jumps, the calls and RTS. -/
def transfersControl : Instr → Bool
  | .jmpr _ | .jmpnr _ | .jmpzr _ | .jmpcr _ | .jmpvr _ => true
  | .jmp _ | .jmpn _ | .jmpz _ | .jmpc _ | .jmpv _ => true
  | .jmpd _ | .jmpnd _ | .jmpzd _ | .jmpcd _ | .jmpvd _ => true
  | .jsrr _ | .jsr _ | .jsrd _ | .rts => true
  | _ => false

/-- Every general register is as before. -/
def KeepsRegs (s t : State) : Prop := ∀ q, t.reg q = s.reg q

/-- Every general register but `rt` is as before. -/
def KeepsOtherRegs (rt : Reg) (s t : State) : Prop := ∀ q, q ≠ rt → t.reg q = s.reg q

/-- Every byte of memory is as before. -/
def KeepsMemory (s t : State) : Prop := ∀ k, t.mem.readByte k = s.mem.readByte k

/-- The word at `a` now is `v`, and every byte of memory outside that word is as before. -/
def StoresWord (a v : Word) (s t : State) : Prop :=
  t.mem.readWord a = v ∧ ∀ k, k ≠ lowCell a → k ≠ highCell a → t.mem.readByte k = s.mem.readByte k

/-- PC (as the fetch left it), SP, IR and the run state are as before. -/
def KeepsControl (s t : State) : Prop := t.pc = s.pc ∧ t.sp = s.sp ∧ t.ir = s.ir ∧ t.halted = s.halted

/-- Nothing but PC differs. -/
def KeepsAllButPc (s t : State) : Prop := t = { s with pc := t.pc }

/-- N is the sign of `r` as a two's-complement number, Z says that `r` is 0. -/
def SignFlagsOf (r : Word) (f : Flags) : Prop := f.n = decide (r.toInt < 0) ∧ f.z = decide (r.toNat = 0)

/-- The signed number `x` does not fit in 16 bits. -/
def outOfRange (x : Int) : Bool := decide (x < -32768 ∨ 32767 < x)

/-- `rt` holds the sum modulo 2^16; N, Z by the result; C by the unsigned sum, V by the signed one; all else is kept. -/
def SumWritten (rt : Reg) (a b : Word) (s t : State) : Prop :=
  (t.reg rt).toNat = (a.toNat + b.toNat) % 65536 ∧ SignFlagsOf (t.reg rt) t.flags ∧
  t.flags.c = decide (65536 ≤ a.toNat + b.toNat) ∧ t.flags.v = outOfRange (a.toInt + b.toInt) ∧
  KeepsOtherRegs rt s t ∧ KeepsControl s t ∧ KeepsMemory s t

/-- `rt` holds the difference modulo 2^16; N, Z by the result; C under the open reading of a borrow, V by the signed
difference; all else is kept. -/
def DifferenceWritten (rt : Reg) (a b : Word) (s t : State) : Prop :=
  ((t.reg rt).toNat : Int) = ((a.toNat : Int) - b.toNat) % 65536 ∧ SignFlagsOf (t.reg rt) t.flags ∧
  (t.flags.c = match Config.subCarry with
    | .notBorrow => decide (b.toNat ≤ a.toNat)
    | .borrow => decide (a.toNat < b.toNat)) ∧
  t.flags.v = outOfRange (a.toInt - b.toInt) ∧ KeepsOtherRegs rt s t ∧ KeepsControl s t ∧ KeepsMemory s t

/-- What every logic and shift instruction keeps, and its N and Z. -/
def LogicFrame (rt : Reg) (s t : State) : Prop :=
  SignFlagsOf (t.reg rt) t.flags ∧ t.flags.c = s.flags.c ∧ t.flags.v = s.flags.v ∧
  KeepsOtherRegs rt s t ∧ KeepsControl s t ∧ KeepsMemory s t

/-- What a load of a register keeps: all flags, the other registers, control and memory. -/
def LoadFrame (rt : Reg) (s t : State) : Prop :=
  t.flags = s.flags ∧ KeepsOtherRegs rt s t ∧ KeepsControl s t ∧ KeepsMemory s t

/-- A call: the incremented PC on the stack, SP one down, PC at the target; all else is kept. -/
def CallMade (target : Nat) (s t : State) : Prop :=
  t.pc.toNat = target ∧ t.sp.toNat = (s.sp.toNat + 65535) % 65536 ∧ StoresWord s.sp s.pc s t ∧
  KeepsRegs s t ∧ t.flags = s.flags ∧ t.ir = s.ir ∧ t.halted = s.halted

/-- The invariant of the machine: memory in its canonical form, and a halted machine holds a HALT word in IR
(spec/46_nop_halt.md R202). -/
def State.Inv (s : State) : Prop := s.mem.wf ∧ (s.halted = true → decode s.ir = .ok .halt)

/-- `k` steps of the machine, stopping at the first fault. -/
def run (k : Nat) (s : State) : Host.Outcome State Fault Refusal := Host.Core.run core k s

/-- A run that meets no model fault, however long. -/
def RunsWithoutFault (s : State) : Prop := ∀ k, ∃ t, run k s = .next t

/-- The meanings of a list of instructions, one after the other, without fetches. -/
def execAll : List Instr → State → Host.Outcome State Fault Refusal
  | [], s => .next s
  | i :: rest, s =>
    match exec i s with
    | .next t => execAll rest t
    | .fault f => .fault f
    | .refused r => .refused r

/-- The bits of a row's words that the decoder looks at or hands on: all but those that only the strict mask fixes
(spec/30_encoding.md R74). -/
def usedBits (row : OpcodeRow) : Word := ~~~ (row.strictMask ^^^ row.mask)

end Sys2Proof.Machine
end

