-- ==== Sys2Proof/Certificates/Slice0/Obligations.lean ====
section
/-!
DEFINITION. The statements for the provers. `exec` is applied to the state that the fetch has left, so PC there is the address
of the instruction plus 1 (spec/00_scope.md R11).
-/

open Sys2Proof Sys2Proof.Machine

/-- For every instruction, with every operand at every value its field admits, the decoder applied to its encoding answers
that instruction. The opcode map is the spec's own derivation from the formats; the place of the condition field is
its decision D3 (log entry 11). (30_encoding.md sections 2, 4 and 6.) -/
def Obligations.DecodeOfEncodeIsTheInstruction : Prop :=
  ∀ i : Instr, decode (encode i) = .ok i

/-- For every word that decodes to an instruction: if the word is canonical by the opcode table's strict masks, encoding
the instruction gives the word back; and the encoding of the instruction is itself canonical. That ignored fields are
ignored is the spec's decision D2 (log entry 10). (30_encoding.md sections 4 and 6, opcode_table.json.) -/
def Obligations.CanonicalWordsEncodeBack : Prop :=
  (∀ (w : Word) (i : Instr), decode w = .ok i → canonicalWord w = true → encode i = w) ∧
  ∀ i : Instr, canonicalWord (encode i) = true

/-- For every word and every row of the opcode table (mask and match): if the row covers the word, the decoder answers an
instruction of that row's mnemonic; and if no row covers it, the decoder rejects the word. The set of unassigned words
is the spec's derivation; that they are rejected is its decision D1 (log entry 9). (30_encoding.md sections 4 and 6,
opcode_table.json.) -/
def Obligations.DecodesExactlyTheAssignedWords : Prop :=
  (∀ row ∈ opcodeTable, ∀ w : Word, row.covers w = true → ∃ i, decode w = .ok i ∧ i.mnemonic = row.mnemonic) ∧
  ∀ w : Word, assignedWord w = false → ∃ e, decode w = .error e

/-- For every row of the opcode table and two words it covers that agree on every bit but those only the strict mask
fixes, the decoder answers the same for both. This is the spec's decision D2 (and D3 for JMPD), log entry 10.
(30_encoding.md section 4, 92_eei_decisions.md row D2.) -/
def Obligations.IgnoredFieldsDoNotMatter : Prop :=
  ∀ row ∈ opcodeTable, ∀ w w' : Word, row.covers w = true → row.covers w' = true →
    w &&& usedBits row = w' &&& usedBits row → decode w = decode w'

/-- 0412 is ADD R4,R1,R2; 62FF is SUBI R2,#FFH; 8110 is LDH R1,#10H; AD01 is ST R13,R0,R1; B443 is SR1 R4,R4; B0D7 is LDSP
R13; B008 is RTS; C077 is JMPZ R7; C01A is JSRR R1; D050 is JMPD +50h; E7FC is JMPZD -4; F013 is JSRD +13h; B7A5 is
NOP and B00B is no instruction. E7FC rests on the decision D3 (log entry 11), B7A5 on D2 (log entry 10) and B00B on D1
(log entry 9); the others are words of the source's examples. (30_encoding.md section 6, 95_test_vectors.md sections
1.1, 2.10, 2.12 and 2.13.) -/
def Obligations.SampleWordsDecode : Prop :=
  decode 0x0412 = .ok (.add 4 1 2) ∧ decode 0x62FF = .ok (.subi 2 0xFF) ∧ decode 0x8110 = .ok (.ldh 1 0x10) ∧
  decode 0xAD01 = .ok (.st 13 0 1) ∧ decode 0xB443 = .ok (.sr1 4 4) ∧ decode 0xB0D7 = .ok (.ldsp 13) ∧
  decode 0xB008 = .ok .rts ∧ decode 0xC077 = .ok (.jmpz 7) ∧ decode 0xC01A = .ok (.jsrr 1) ∧
  decode 0xD050 = .ok (.jmpd 0x050) ∧ decode 0xE7FC = .ok (.jmpzd 0x3FC) ∧ decode 0xF013 = .ok (.jsrd 0x013) ∧
  decode 0xB7A5 = .ok .nop ∧ decode 0xB00B = .error (.unassignedUnary 0xB00B)

/-- For every address and word, the nine characters written for them parse to that address and word, and so do they with
any number of blanks behind them, none included, and with any number of blanks, a semicolon and any comment behind
them. What may follow the nine characters is the model's choice (log entry 25). (70_reset_and_hazards.md section 2.) -/
def Obligations.ObjectLineRoundTrip : Prop :=
  ∀ (address word : Word) (blanks : Nat) (comment : List Char),
    (objectLine address word).length = 9 ∧
    parseObjectLine (objectLine address word ++ List.replicate blanks ' ') = some (address, word) ∧
    parseObjectLine (objectLine address word ++ List.replicate blanks ' ' ++ ';' :: comment) = some (address, word)

/-- In every memory, after a word is written at an address, reading that address gives the word, reading any other of the
65,536 addresses gives what it gave before, and every byte outside the word is unchanged. That every address is plain
storage is the spec's decision D12 (log entry 12). (20_memory.md sections 2 and 3.) -/
def Obligations.WordReadAfterWrite : Prop :=
  ∀ (m : Memory) (a b v : Word),
    (m.writeWord a v).readWord a = v ∧ (b ≠ a → (m.writeWord a v).readWord b = m.readWord b) ∧
    ∀ k, k ≠ lowCell a → k ≠ highCell a → (m.writeWord a v).readByte k = m.readByte k

/-- If two memories are in the canonical form and every one of the 65,536 words reads the same in both, they are equal as
data. The form is the model's own (log entries 1 and 2). (20_memory.md section 1.) -/
def Obligations.EqualMemoriesAreEqualData : Prop :=
  ∀ m m' : Memory, m.wf → m'.wf → (∀ a : Word, m.readWord a = m'.readWord a) → m = m'

/-- After an image whose addresses are all different is loaded, each listed address reads its listed word, each unlisted
address reads as before, and every register, the flags and the run state are as before. That the host loads the image
is log entry 19. (70_reset_and_hazards.md sections 1 and 2, 20_memory.md section 4.) -/
def Obligations.ImageLoadSetsListedWords : Prop :=
  ∀ (image : List (Word × Word)) (s : State), (image.map Prod.fst).Nodup →
    (∀ p ∈ image, (loadImage image s).mem.readWord p.1 = p.2) ∧
    (∀ a, a ∉ image.map Prod.fst → (loadImage image s).mem.readWord a = s.mem.readWord a) ∧
    loadImage image s = { s with mem := (loadImage image s).mem }

/-- If the machine is not halted and the word at PC decodes to i, the step is the meaning of i in the state that has that
word in IR and PC one further; if it is halted, the step leaves the state as it is. That a halted step answers the
same state is log entry 14 (D13), the wrap of PC log entry 13 (D9). (00_scope.md section 5, 46_nop_halt.md section
HALT.) -/
def Obligations.StepRunsTheDecodedInstruction : Prop :=
  ∀ s : State,
    (∀ i, s.halted = false → decode (s.mem.readWord s.pc) = .ok i →
      step s = exec i { s with ir := s.mem.readWord s.pc, pc := s.pc + 1 }) ∧
    (s.halted = true → step s = .next s)

/-- For every state with the invariant (memory in its canonical form; if halted, the word in IR decodes to HALT), if the
step answers a next state, that state has the invariant. The canonical form is the model's own (log entries 1, 2);
that IR keeps the HALT word while halted is the spec's derivation (D13, log entry 14). (20_memory.md section 1,
46_nop_halt.md section HALT, 10_state.md section 6.) -/
def Obligations.StepKeepsInvariant : Prop :=
  ∀ s t : State, s.Inv → step s = .next t → t.Inv

/-- State.reset has a canonical memory and is not halted with anything but a HALT word in IR. That no memory cell is
listed at reset is the model's choice (log entry 1). (10_state.md section 8, 20_memory.md section 4.) -/
def Obligations.ResetHasInvariant : Prop :=
  State.reset.Inv

/-- If the machine is not halted and no row of the opcode table covers the word at PC, the step is the fault
illegalInstruction of that word. The fault is the spec's decision D1 (log entry 9). (60_exceptions.md section 1,
92_eei_decisions.md row D1.) -/
def Obligations.UnassignedWordFaults : Prop :=
  ∀ s : State, s.halted = false → assignedWord (s.mem.readWord s.pc) = false →
    step s = .fault (.illegalInstruction (s.mem.readWord s.pc))

/-- For every state and number of steps, the run either answers a next state or the fault illegalInstruction of a word
that no row of the opcode table covers; it is never refused and never meets unpopulatedAccess. That all addresses are
populated is the spec's decision D12 (log entry 12). (60_exceptions.md section 1.) -/
def Obligations.OnlyUnassignedWordsStop : Prop :=
  ∀ (k : Nat) (s : State),
    (∃ t, run k s = .next t) ∨
    ∃ w, run k s = .fault (.illegalInstruction w) ∧ assignedWord w = false

/-- For every instruction and every state, exec answers a next state, with IR as it was and halted only if it was or the
instruction is HALT. That every data address is populated is the spec's decision D12 (log entry 12). (60_exceptions.md
section 1.) -/
def Obligations.EveryInstructionCompletes : Prop :=
  ∀ (i : Instr) (s : State), ∃ t, exec i s = .next t ∧ t.ir = s.ir ∧ t.halted = (s.halted || i == .halt)

/-- A run of any length from a halted state ends in that same state, so it meets no fault; the reset event, with any draw,
makes it run again from 0000h. That halted is left by reset only is the spec's decision D13 (log entry 14).
(46_nop_halt.md section HALT, 92_eei_decisions.md row D13.) -/
def Obligations.HaltedMachineRunsWithoutFault : Prop :=
  ∀ s : State, s.halted = true →
    (∀ k, run k s = .next s) ∧ RunsWithoutFault s ∧
    ∀ d, (processorReset d s).halted = false ∧ (processorReset d s).pc = 0

/-- If ST is executed in a state that is not halted and its address is PC (which the fetch has moved to the next
instruction), and the stored word decodes to i, then the step from the state it leaves is the meaning of i with that
word in IR and PC one further. That every address is plain storage is D12 (log entry 12), the wraps are D9 (log entry
13). (20_memory.md section 5.) -/
def Obligations.NextFetchSeesTheStore : Prop :=
  ∀ (rt rs1 rs2 : Reg) (s : State) (i : Instr), s.halted = false → effectiveAddress s rs1 rs2 = s.pc →
    decode (s.reg rt) = .ok i →
    ∃ t, exec (.st rt rs1 rs2) s = .next t ∧ step t = exec i { t with ir := s.reg rt, pc := s.pc + 1 }

/-- ADD of two registers and ADDI of the target and its zero-extended constant complete in every state: the target holds
the sum modulo 65536, N and Z describe the result, C says the unsigned sum reached 65536, V says the signed sum left
the 16-bit range; every other register, PC, SP, IR, the run state and every byte of memory are kept. The flag formulas
are the spec's decision D11, from general knowledge (log entry 8). (40_arith_logic.md sections 1, 2 and 3.) -/
def Obligations.AdditionWritesSumAndFlags : Prop :=
  (∀ (rt rs1 rs2 : Reg) (s : State), ∃ t, exec (.add rt rs1 rs2) s = .next t ∧
      SumWritten rt (s.reg rs1) (s.reg rs2) s t) ∧
  ∀ (rt : Reg) (c : Byte) (s : State), ∃ t, exec (.addi rt c) s = .next t ∧
      SumWritten rt (s.reg rt) (BitVec.ofNat 16 c.toNat) s t

/-- SUB (first source minus second) and SUBI (target minus zero-extended constant) complete in every state: the target
holds the difference modulo 65536, N and Z describe the result, C is by the configured reading of SUB_CARRY (no
borrow, or borrow), V says the signed difference left the 16-bit range; all else is kept. SUB_CARRY is open (D10, log
entry 7); the other formulas are D11 (log entry 8). (40_arith_logic.md sections 1, 2 and 3, 92_eei_decisions.md row
D10.) -/
def Obligations.SubtractionWritesDifferenceAndFlags : Prop :=
  (∀ (rt rs1 rs2 : Reg) (s : State), ∃ t, exec (.sub rt rs1 rs2) s = .next t ∧
      DifferenceWritten rt (s.reg rs1) (s.reg rs2) s t) ∧
  ∀ (rt : Reg) (c : Byte) (s : State), ∃ t, exec (.subi rt c) s = .next t ∧
      DifferenceWritten rt (s.reg rt) (BitVec.ofNat 16 c.toNat) s t

/-- For every state and operands: each bit of the target is the conjunction, disjunction, exclusive or of the sources'
bits, or the inverse of the source's bit; N and Z describe the result, C and V and everything else are kept. The
formulas of N and Z are D11 (log entry 8). (40_arith_logic.md sections 1, 2 and 4.) -/
def Obligations.BitwiseLogicWritesEachBit : Prop :=
  ∀ (rt rs1 rs2 : Reg) (s : State),
    (∃ t, exec (.and rt rs1 rs2) s = .next t ∧ LogicFrame rt s t ∧
      ∀ k < 16, (t.reg rt).getLsbD k = ((s.reg rs1).getLsbD k && (s.reg rs2).getLsbD k)) ∧
    (∃ t, exec (.or rt rs1 rs2) s = .next t ∧ LogicFrame rt s t ∧
      ∀ k < 16, (t.reg rt).getLsbD k = ((s.reg rs1).getLsbD k || (s.reg rs2).getLsbD k)) ∧
    (∃ t, exec (.xor rt rs1 rs2) s = .next t ∧ LogicFrame rt s t ∧
      ∀ k < 16, (t.reg rt).getLsbD k = ((s.reg rs1).getLsbD k != (s.reg rs2).getLsbD k)) ∧
    ∃ t, exec (.not rt rs1) s = .next t ∧ LogicFrame rt s t ∧
      ∀ k < 16, (t.reg rt).getLsbD k = !(s.reg rs1).getLsbD k

/-- For every state and operands: SL0 leaves 2x mod 65536, SL1 that plus 1, SR0 the half of x rounded down, SR1 that plus
32768; the bit shifted out is lost: C and V and everything else are kept. The formulas of N and Z are D11 (log entry
8). (40_arith_logic.md sections 1 and 4.) -/
def Obligations.ShiftsMoveOneBit : Prop :=
  ∀ (rt rs1 : Reg) (s : State),
    (∃ t, exec (.sl0 rt rs1) s = .next t ∧ LogicFrame rt s t ∧
      (t.reg rt).toNat = 2 * (s.reg rs1).toNat % 65536) ∧
    (∃ t, exec (.sl1 rt rs1) s = .next t ∧ LogicFrame rt s t ∧
      (t.reg rt).toNat = 2 * (s.reg rs1).toNat % 65536 + 1) ∧
    (∃ t, exec (.sr0 rt rs1) s = .next t ∧ LogicFrame rt s t ∧
      (t.reg rt).toNat = (s.reg rs1).toNat / 2) ∧
    ∃ t, exec (.sr1 rt rs1) s = .next t ∧ LogicFrame rt s t ∧
      (t.reg rt).toNat = (s.reg rs1).toNat / 2 + 32768

/-- For every state and registers: XOR Rt,Rs,Rs leaves 0 with Z = 1 and N = 0; AND Rt,Rs,Rs and OR Rt,Rs,Rs leave the
value of Rs with N its sign and Z its being 0. In all three both sources are the same register. The formulas of N and
Z are D11 (log entry 8). (40_arith_logic.md sections 1 and 2.) -/
def Obligations.RegisterTestIdioms : Prop :=
  ∀ (rt rs : Reg) (s : State),
    (∃ t, exec (.xor rt rs rs) s = .next t ∧ t.reg rt = 0 ∧ t.flags = ⟨false, true, s.flags.c, s.flags.v⟩) ∧
    (∃ t, exec (.and rt rs rs) s = .next t ∧ t.reg rt = s.reg rs ∧ SignFlagsOf (s.reg rs) t.flags) ∧
    ∃ t, exec (.or rt rs rs) s = .next t ∧ t.reg rt = s.reg rs ∧ SignFlagsOf (s.reg rs) t.flags

/-- Every word with major opcode 7 decodes to LDL of its rt and imm8; LDL completes in every state: the low byte of the
target is the constant, its high byte is as before, and every flag, every other register, PC, SP, IR, the run state
and every byte of memory are kept. That LDL writes no flag is the spec's decision D18 (log entry 18).
(41_const_load.md LDL.) -/
def Obligations.LdlReplacesTheLowByte : Prop :=
  (∀ w : Word, fieldOp w = 7 → decode w = .ok (.ldl (fieldRt w) (fieldImm8 w))) ∧
  ∀ (rt : Reg) (c : Byte) (s : State), ∃ t, exec (.ldl rt c) s = .next t ∧
    (t.reg rt).extractLsb' 0 8 = c ∧ (t.reg rt).extractLsb' 8 8 = (s.reg rt).extractLsb' 8 8 ∧ LoadFrame rt s t

/-- Every word with major opcode 8 decodes to LDH of its rt and imm8; LDH completes in every state: the high byte of the
target is the constant, its low byte is as before, and every flag, every other register, PC, SP, IR, the run state and
every byte of memory are kept. That LDH writes no flag is the spec's decision D18 (log entry 18). (41_const_load.md
LDH.) -/
def Obligations.LdhReplacesTheHighByte : Prop :=
  (∀ w : Word, fieldOp w = 8 → decode w = .ok (.ldh (fieldRt w) (fieldImm8 w))) ∧
  ∀ (rt : Reg) (c : Byte) (s : State), ∃ t, exec (.ldh rt c) s = .next t ∧
    (t.reg rt).extractLsb' 8 8 = c ∧ (t.reg rt).extractLsb' 0 8 = (s.reg rt).extractLsb' 0 8 ∧ LoadFrame rt s t

/-- For every register, constants and state, LDL then LDH and LDH then LDL both end in the state whose target is 256 times
the high constant plus the low one and which keeps the flags, the other registers, control and memory. That neither
writes a flag is D18 (log entry 18). (41_const_load.md opening.) -/
def Obligations.ConstantPairInEitherOrder : Prop :=
  ∀ (rt : Reg) (hi lo : Byte) (s : State), ∃ t,
    execAll [.ldl rt lo, .ldh rt hi] s = .next t ∧ execAll [.ldh rt hi, .ldl rt lo] s = .next t ∧
    (t.reg rt).toNat = 256 * hi.toNat + lo.toNat ∧ LoadFrame rt s t

/-- LD completes in every state: the target holds the word at the address that is the sum of the two old source values
modulo 65536; every flag, every other register, control and every byte of memory are kept. The wrap is the spec's
decision D9 (log entry 13), that a load writes no flag D18 (log entry 18). (42_load_store.md opening and LD,
20_memory.md section 2.) -/
def Obligations.LdReadsTheAddressedWord : Prop :=
  ∀ (rt rs1 rs2 : Reg) (s : State), ∃ t, exec (.ld rt rs1 rs2) s = .next t ∧
    (∀ a : Word, a.toNat = ((s.reg rs1).toNat + (s.reg rs2).toNat) % 65536 → t.reg rt = s.mem.readWord a) ∧
    LoadFrame rt s t

/-- ST completes in every state: the effective address is the sum of the two source values modulo 65536, the word there
becomes the value of rt, every byte of memory outside that word is kept, and so are every register, the flags, PC, SP,
IR and the run state. The wrap is D9 (log entry 13). (42_load_store.md opening and ST, 20_memory.md section 2.) -/
def Obligations.StWritesTheAddressedWord : Prop :=
  ∀ (rt rs1 rs2 : Reg) (s : State),
    (effectiveAddress s rs1 rs2).toNat = ((s.reg rs1).toNat + (s.reg rs2).toNat) % 65536 ∧
    ∃ t, exec (.st rt rs1 rs2) s = .next t ∧ StoresWord (effectiveAddress s rs1 rs2) (s.reg rt) s t ∧
      KeepsRegs s t ∧ t.flags = s.flags ∧ KeepsControl s t

/-- For every state and operands: if ST stores Rt at an address and an LD then forms the same address, the loaded register
holds the value Rt had. That every address is plain storage is D12 (log entry 12), the wrap of the address D9 (log
entry 13). (20_memory.md sections 3 and 5.) -/
def Obligations.LoadAfterStoreReturnsTheWord : Prop :=
  ∀ (rt rs1 rs2 rd a b : Reg) (s : State), effectiveAddress s a b = effectiveAddress s rs1 rs2 →
    ∃ t, execAll [.st rt rs1 rs2, .ld rd a b] s = .next t ∧ t.reg rd = s.reg rt

/-- Every word with major opcode Bh and minor opcode 7 decodes to LDSP of its rs1, whatever its rt field, and the
canonical word is B007h plus 16 times the register number; LDSP completes in every state: SP is the value of the
source register, and every register, every flag, PC, IR, the run state and every byte of memory are kept. That the rt
field is ignored is the spec's decision D2 (log entry 10). (43_stack.md LDSP, 30_encoding.md section 4.) -/
def Obligations.LdspLoadsTheStackPointer : Prop :=
  (∀ w : Word, fieldOp w = 0xB → fieldSub w = 7 → decode w = .ok (.ldsp (fieldRs1 w))) ∧
  (∀ rs1 : Reg, (encode (.ldsp rs1)).toNat = 0xB007 + 16 * rs1.toNat) ∧
  ∀ (rs1 : Reg) (s : State), ∃ t, exec (.ldsp rs1) s = .next t ∧ t.sp = s.reg rs1 ∧
    KeepsRegs s t ∧ t.flags = s.flags ∧ t.pc = s.pc ∧ t.ir = s.ir ∧ t.halted = s.halted ∧ KeepsMemory s t

/-- PUSH completes in every state: the word at the old SP becomes the register's value, every byte outside that word is
kept, SP is one less modulo 65536, and every register, flag, PC, IR and the run state are kept. The wrap is D9 (log
entry 13). (43_stack.md opening and PUSH.) -/
def Obligations.PushStoresAtTheOldStackPointer : Prop :=
  ∀ (rt : Reg) (s : State), ∃ t, exec (.push rt) s = .next t ∧ StoresWord s.sp (s.reg rt) s t ∧
    t.sp.toNat = (s.sp.toNat + 65535) % 65536 ∧
    KeepsRegs s t ∧ t.flags = s.flags ∧ t.pc = s.pc ∧ t.ir = s.ir ∧ t.halted = s.halted

/-- POP completes in every state: SP is one more modulo 65536, the target holds the word at the new SP, and every other
register, every flag, PC, IR, the run state and every byte of memory are kept. The wrap is D9 (log entry 13), that POP
writes no flag D18 (log entry 18). (43_stack.md opening and POP.) -/
def Obligations.PopLoadsTheWordAboveStackPointer : Prop :=
  ∀ (rt : Reg) (s : State), ∃ t, exec (.pop rt) s = .next t ∧ t.reg rt = s.mem.readWord t.sp ∧
    t.sp.toNat = (s.sp.toNat + 1) % 65536 ∧ KeepsOtherRegs rt s t ∧
    t.flags = s.flags ∧ t.pc = s.pc ∧ t.ir = s.ir ∧ t.halted = s.halted ∧ KeepsMemory s t

/-- For every list of at most 65,536 registers: after pushing them, from any state whose SP is the one the pushes left and
in which the words at SP, SP - 1, ... of the state before (one for each push) read as the pushes left them, all else
being anything, popping in the reverse order ends with each of those registers holding the value it had before the
pushes, every other register as it was before the pops, and SP as it was before the pushes. The wraps of SP are D9
(log entry 13). (43_stack.md POP, 45_subroutine.md section 1.) -/
def Obligations.MirroredPopsRestorePushes : Prop :=
  ∀ (rs : List Reg) (s : State), rs.length ≤ 65536 →
    ∃ t, execAll (rs.map Instr.push) s = .next t ∧
      ∀ u : State, u.sp = t.sp →
        (∀ j < rs.length, u.mem.readWord (s.sp - BitVec.ofNat 16 j) = t.mem.readWord (s.sp - BitVec.ofNat 16 j)) →
        ∃ v, execAll (rs.reverse.map Instr.pop) u = .next v ∧ v.sp = s.sp ∧ (∀ r ∈ rs, v.reg r = s.reg r) ∧
          ∀ r, r ∉ rs → v.reg r = u.reg r

/-- For every register holding T and every list of k registers, k at most 65,536: LDSP and the k pushes complete, SP is T
- k, the j-th pushed word (counting from 0) is at T - j, and every address that is none of these k reads as before
(all modulo 65536: D9, log entry 13). (43_stack.md opening.) -/
def Obligations.PushedWordsLieBelowTheTop : Prop :=
  ∀ (rs1 : Reg) (rs : List Reg) (s : State), rs.length ≤ 65536 →
    ∃ t, execAll (.ldsp rs1 :: rs.map Instr.push) s = .next t ∧
      t.sp = s.reg rs1 - BitVec.ofNat 16 rs.length ∧
      (∀ (j : Nat) (r : Reg), rs[j]? = some r → t.mem.readWord (s.reg rs1 - BitVec.ofNat 16 j) = s.reg r) ∧
      ∀ a : Word, (∀ j < rs.length, a ≠ s.reg rs1 - BitVec.ofNat 16 j) → t.mem.readWord a = s.mem.readWord a

/-- The words with major opcode Ch and minor opcodes 5 to 9 decode to the five absolute jumps of their rs1, and the
canonical words are C005h to C009h plus 16 times the register number. Each completes in every state: with its
condition true PC is the register's value and nothing else changes, in 4 cycles; with its flag 0 the state is the one
before, in 3 cycles. That the rt field is ignored is the spec's decision D2 (log entry 10); the cycles are those of
the suggested organisation (log entry 21). (44_jumps.md sections 1 and 3, 30_encoding.md section 4.) -/
def Obligations.AbsoluteJumpsGoToTheRegister : Prop :=
  (∀ w : Word, fieldOp w = 0xC →
      (fieldSub w = 5 → decode w = .ok (.jmp (fieldRs1 w))) ∧ (fieldSub w = 6 → decode w = .ok (.jmpn (fieldRs1 w))) ∧
      (fieldSub w = 7 → decode w = .ok (.jmpz (fieldRs1 w))) ∧ (fieldSub w = 8 → decode w = .ok (.jmpc (fieldRs1 w))) ∧
      (fieldSub w = 9 → decode w = .ok (.jmpv (fieldRs1 w)))) ∧
  (∀ rs1 : Reg, ∀ p ∈ [(Instr.jmp rs1, 0xC005), (.jmpn rs1, 0xC006), (.jmpz rs1, 0xC007), (.jmpc rs1, 0xC008),
      (.jmpv rs1, 0xC009)], (encode p.1).toNat = p.2 + 16 * rs1.toNat) ∧
  ∀ (rs1 : Reg) (s : State),
    ∀ p ∈ [(Instr.jmp rs1, true), (.jmpn rs1, s.flags.n), (.jmpz rs1, s.flags.z), (.jmpc rs1, s.flags.c),
        (.jmpv rs1, s.flags.v)],
      ∃ t, exec p.1 s = .next t ∧ KeepsAllButPc s t ∧
        (p.2 = true → t.pc = s.reg rs1 ∧ cyclesOf p.1 s.flags = 4) ∧
        (p.2 = false → t.pc = s.pc ∧ cyclesOf p.1 s.flags = 3)

/-- Each of the five completes in every state: with its condition true PC is the incremented PC plus the register's value
modulo 65536 and nothing else changes; with its flag 0 the state is the one before. The wrap is the spec's decision D9
(log entry 13). (44_jumps.md sections 1 and 2.) -/
def Obligations.RegisterRelativeJumpsAddTheRegister : Prop :=
  ∀ (rs1 : Reg) (s : State),
    ∀ p ∈ [(Instr.jmpr rs1, true), (.jmpnr rs1, s.flags.n), (.jmpzr rs1, s.flags.z), (.jmpcr rs1, s.flags.c),
        (.jmpvr rs1, s.flags.v)],
      ∃ t, exec p.1 s = .next t ∧ KeepsAllButPc s t ∧
        (p.2 = true → t.pc.toNat = (s.pc.toNat + (s.reg rs1).toNat) % 65536) ∧ (p.2 = false → t.pc = s.pc)

/-- Each of the five completes in every state: with its condition true PC is the incremented PC plus the displacement read
as a signed number, modulo 65536, and nothing else changes; with its flag 0 the state is the one before; the
displacement lies between -512 and 511. The wrap is D9 (log entry 13). (44_jumps.md sections 1 and 4, 30_encoding.md
section 3.) -/
def Obligations.DisplacementJumpsAddTheSignedField : Prop :=
  ∀ (d : BitVec 10) (s : State), (-512 ≤ d.toInt ∧ d.toInt ≤ 511) ∧
    ∀ p ∈ [(Instr.jmpd d, true), (.jmpnd d, s.flags.n), (.jmpzd d, s.flags.z), (.jmpcd d, s.flags.c),
        (.jmpvd d, s.flags.v)],
      ∃ t, exec p.1 s = .next t ∧ KeepsAllButPc s t ∧
        (p.2 = true → (t.pc.toNat : Int) = ((s.pc.toNat : Int) + d.toInt) % 65536) ∧ (p.2 = false → t.pc = s.pc)

/-- From every state that is not halted and has the word D3FF at PC, a run of any number of steps, at least one, ends in
the state that differs from it only in IR, which holds D3FF. The wrap of PC is D9 (log entry 13). (44_jumps.md
sections 1 and 4.) -/
def Obligations.BranchToSelfNeverEnds : Prop :=
  ∀ (s : State) (k : Nat), s.halted = false → s.mem.readWord s.pc = 0xD3FF →
    run (k + 1) s = .next { s with ir := 0xD3FF }

/-- Each call completes in every state: the word at the old SP becomes the incremented PC and every byte outside it is
kept, SP is one less modulo 65536, PC is the sum of the incremented PC and the register (JSRR), the register (JSR), or
the sum of the incremented PC and the signed 12-bit displacement (JSRD), modulo 65536; every register, flag, IR and
the run state are kept. The wraps are D9 (log entry 13), the order of effects D24 (log entry 17). (45_subroutine.md
section 1, 30_encoding.md section 3.) -/
def Obligations.CallsPushReturnAddressAndJump : Prop :=
  (∀ (rs1 : Reg) (s : State), ∃ t, exec (.jsrr rs1) s = .next t ∧
      CallMade ((s.pc.toNat + (s.reg rs1).toNat) % 65536) s t) ∧
  (∀ (rs1 : Reg) (s : State), ∃ t, exec (.jsr rs1) s = .next t ∧ CallMade (s.reg rs1).toNat s t) ∧
  ∀ (d : BitVec 12) (s : State), ∃ t, exec (.jsrd d) s = .next t ∧
      CallMade (((s.pc.toNat : Int) + d.toInt) % 65536).toNat s t

/-- RTS completes in every state: SP is one more modulo 65536, PC is the word at the new SP, and nothing else changes. The
wrap is D9 (log entry 13). (45_subroutine.md RTS.) -/
def Obligations.RtsTakesPcFromTheStack : Prop :=
  ∀ s : State, ∃ t, exec .rts s = .next t ∧ t.sp.toNat = (s.sp.toNat + 1) % 65536 ∧
    t.pc = s.mem.readWord t.sp ∧ t = { s with pc := t.pc, sp := t.sp }

/-- For each of the three calls, in every state: from any later state whose SP is the one the call left and whose word at
SP + 1 is still the one the call stored, RTS sets PC to the address after the call and SP to what it was before the
call. The wraps are D9 (log entry 13). (45_subroutine.md section 1.) -/
def Obligations.ReturnUndoesACall : Prop :=
  ∀ (rs1 : Reg) (d : BitVec 12) (s : State), ∀ i ∈ [Instr.jsrr rs1, .jsr rs1, .jsrd d],
    ∃ t, exec i s = .next t ∧
      ∀ u : State, u.sp = t.sp → u.mem.readWord (t.sp + 1) = t.mem.readWord (t.sp + 1) →
        ∃ v, exec .rts u = .next v ∧ v.pc = s.pc ∧ v.sp = s.sp

/-- Every word with major opcode Bh and minor opcode 5 decodes to NOP, whose canonical word is B005h, and the word 0000h
is ADD R0,R0,R0; the meaning of NOP leaves the state as the fetch left it, so a step at such a word in a state that is
not halted changes IR and PC only; it takes 3 cycles. That its two empty fields are ignored is the spec's decision D2
(log entry 10), the wrap of PC D9 (log entry 13), and the cycles are those of the suggested organisation (log entry
21). (46_nop_halt.md section NOP, 30_encoding.md section 4.) -/
def Obligations.NopChangesNothing : Prop :=
  (∀ w : Word, fieldOp w = 0xB → fieldSub w = 5 → decode w = .ok .nop) ∧ encode .nop = 0xB005 ∧
  decode 0x0000 = .ok (.add 0 0 0) ∧ (∀ s : State, exec .nop s = .next s) ∧
  (∀ s : State, s.halted = false → decode (s.mem.readWord s.pc) = .ok .nop →
    step s = .next { s with ir := s.mem.readWord s.pc, pc := s.pc + 1 }) ∧
  ∀ f : Flags, cyclesOf .nop f = 3

/-- Every word with major opcode Bh and minor opcode 6 decodes to HALT, whose canonical word is B006h; HALT completes in
every state: halted is true and nothing else changes; from then on every step leaves the state as it is; its fetch and
first halt cycle are 2 cycles. That its two empty fields are ignored is the spec's decision D2 (log entry 10), that a
halted step answers the same state log entry 14 (D13), and 2 as the reading of the table's 2+ log entry 21.
(46_nop_halt.md section HALT, 30_encoding.md section 4.) -/
def Obligations.HaltSetsTheRunState : Prop :=
  (∀ w : Word, fieldOp w = 0xB → fieldSub w = 6 → decode w = .ok .halt) ∧ encode .halt = 0xB006 ∧
  (∀ s : State, ∃ t, exec .halt s = .next t ∧ t = { s with halted := true } ∧ step t = .next t) ∧
  ∀ f : Flags, cyclesOf .halt f = 2

/-- For every instruction and two states that differ in general registers only and agree on the registers the instruction
is listed to read: both complete, every register but the listed target keeps its own value in each, the target ends
equal in both, and everything that is not a general register ends equal in both. (R23.) -/
def Obligations.BankIsReadAndWrittenAsListed : Prop :=
  ∀ (i : Instr) (s s' : State), s' = { s with regs := s'.regs } → (∀ r ∈ regsRead i, s'.reg r = s.reg r) →
    ∃ t t', exec i s = .next t ∧ exec i s' = .next t' ∧ t' = { t with regs := t'.regs } ∧
      (∀ r, regWritten i = some r → t'.reg r = t.reg r) ∧
      ∀ r, regWritten i ≠ some r → t.reg r = s.reg r ∧ t'.reg r = s'.reg r

/-- For every instruction and state the instruction completes; if it has no mark lnz, N and Z are as before; if it has no
mark lcv, C and V are as before; if it has one, N and Z describe the value its target register now holds. That loads
are unmarked is the spec's decision D18 (log entry 18), the formulas are D11 (log entry 8). (10_state.md section 5,
40_arith_logic.md section 1.) -/
def Obligations.FlagsAreWrittenAsMarked : Prop :=
  ∀ (i : Instr) (s : State), ∃ t, exec i s = .next t ∧
    (writesNZFlags i = false → t.flags.n = s.flags.n ∧ t.flags.z = s.flags.z) ∧
    (writesCVFlags i = false → t.flags.c = s.flags.c ∧ t.flags.v = s.flags.v) ∧
    ∀ r, writesNZFlags i = true → regWritten i = some r → SignFlagsOf (t.reg r) t.flags

/-- For every instruction and state the instruction completes; if it is listed to write data at an address, every byte
outside that word is as before; if it is not, every byte of memory is as before. (20_memory.md section 1.) -/
def Obligations.MemoryIsWrittenAsListed : Prop :=
  ∀ (i : Instr) (s : State), ∃ t, exec i s = .next t ∧
    (∀ a, dataWriteAddress i s = some a →
      ∀ k, k ≠ lowCell a → k ≠ highCell a → t.mem.readByte k = s.mem.readByte k) ∧
    (dataWriteAddress i s = none → KeepsMemory s t)

/-- For every instruction and two states that differ in memory only and agree on the word at the address the instruction
is listed to read data from, if any: both complete, and everything but memory ends equal in both. (20_memory.md
section 1.) -/
def Obligations.MemoryIsReadAsListed : Prop :=
  ∀ (i : Instr) (s s' : State), s' = { s with mem := s'.mem } →
    (∀ a, dataReadAddress i s = some a → s'.mem.readWord a = s.mem.readWord a) →
    ∃ t t', exec i s = .next t ∧ exec i s' = .next t' ∧ t' = { t with mem := t'.mem }

/-- For every state that is not halted whose word at PC decodes to an instruction that is no jump, call or RTS (HALT among
them), the step completes and PC is one more modulo 65536. The wrap is D9 (log entry 13). (10_state.md section 3.) -/
def Obligations.ProgramCounterChangesAsListed : Prop :=
  ∀ (s : State) (i : Instr), s.halted = false → decode (s.mem.readWord s.pc) = .ok i → transfersControl i = false →
    ∃ t, step s = .next t ∧ t.pc.toNat = (s.pc.toNat + 1) % 65536

/-- For every instruction and state the instruction completes; if it is neither LDSP nor one that pushes (PUSH, JSRR, JSR,
JSRD) nor one that pops (POP, RTS), SP is as before; a push leaves one less and a pop one more, modulo 65536 (D9, log
entry 13). (10_state.md section 4.) -/
def Obligations.StackPointerChangesAsListed : Prop :=
  ∀ (i : Instr) (s : State), ∃ t, exec i s = .next t ∧
    (∀ rs1, i = .ldsp rs1 → t.sp = s.reg rs1) ∧
    ((∃ r d, i ∈ [Instr.push r, .jsrr r, .jsr r, .jsrd d]) → t.sp.toNat = (s.sp.toNat + 65535) % 65536) ∧
    ((∃ r, i ∈ [Instr.pop r, .rts]) → t.sp.toNat = (s.sp.toNat + 1) % 65536) ∧
    ((∀ r d, i ∉ [Instr.ldsp r, .push r, .pop r, .rts, .jsrr r, .jsr r, .jsrd d]) → t.sp = s.sp)

/-- For every instruction, state and word: the instruction completes with IR as it was, and with another word in IR it
ends in the same state but for that word; a step that is not halted and completes leaves in IR the word that was at
PC, and a halted one leaves IR alone. (R31.) -/
def Obligations.InstructionRegisterIsWrittenByFetchOnly : Prop :=
  (∀ (i : Instr) (s : State) (w : Word), ∃ t, exec i s = .next t ∧ t.ir = s.ir ∧
      exec i { s with ir := w } = .next { t with ir := w }) ∧
  ∀ s t : State, step s = .next t →
    (s.halted = false → t.ir = s.mem.readWord s.pc) ∧ (s.halted = true → t.ir = s.ir)

/-- HALT sets halted and no other instruction changes it; with halted flipped an instruction other than HALT ends in the
same state but for it; a halted machine's step changes nothing and a halted organisation's bus is idle in every cycle;
the reset event clears halted. That a halted step answers the same state is log entry 14 (D13), that the bus is idle
in Shalt log entry 22. (10_state.md section 6, 46_nop_halt.md section HALT, 20_memory.md section 6.) -/
def Obligations.RunStateIsHaltAndResetOnly : Prop :=
  (∀ (i : Instr) (s : State), ∃ t, exec i s = .next t ∧
      (i = .halt → t.halted = true) ∧ (i ≠ .halt → t.halted = s.halted) ∧
      ∀ b, i ≠ .halt → exec i { s with halted := b } = .next { t with halted := b }) ∧
  (∀ s : State, s.halted = true → step s = .next s) ∧
  (∀ (o : Organisation) (k : Nat), o.fsm = .shalt → o.arch.halted = true →
    clocks k o = .next o ∧ ∀ b ∈ busTrace k o, b = .idle) ∧
  ∀ d s, (processorReset d s).halted = false

/-- At State.reset, and after the reset event from any state with any draw, PC is 0000h and halted is false. (R36.) -/
def Obligations.ResetStartsFetchAtZero : Prop :=
  (State.reset.pc = 0 ∧ State.reset.halted = false) ∧
  ∀ d s, (processorReset d s).pc = 0 ∧ (processorReset d s).halted = false

/-- From every state and for every draw: each general register is 0000h (the spec's decision D4, log entry 3), SP, IR and
the flags are the draw's (the spec leaves them unspecified: D5 to D7, log entry 15), and every byte of memory is as
before. (70_reset_and_hazards.md section 1, 10_state.md section 8.) -/
def Obligations.ResetEventClearsBankKeepsMemory : Prop :=
  ∀ (d : ResetDraw) (s : State), (∀ r, (processorReset d s).reg r = 0) ∧ (processorReset d s).sp = d.sp ∧
    (processorReset d s).ir = d.ir ∧ (processorReset d s).flags = d.flags ∧ KeepsMemory s (processorReset d s)

/-- State.reset equals the reset event, from any state whose memory lists nothing, with the draw SP = 0000h, IR = 0000h
and all flags 0; every word of its memory reads 0000h. These values are the model's own choices, not the spec's: log
entries 1, 4, 5 and 6. (10_state.md section 8, 20_memory.md section 4.) -/
def Obligations.ResetStateHoldsTheLoggedChoices : Prop :=
  ∀ s : State, s.mem = [] →
    State.reset = processorReset ⟨0, 0, ⟨false, false, false, false⟩⟩ s ∧ ∀ a : Word, State.reset.mem.readWord a = 0

/-- The 26 instructions listed with 4 cycles take 4 with any flags, NOP takes 3, each conditional jump takes 4 when the
flag it tests is 1 and 3 when it is 0, HALT takes 2 (its fetch and its first halt cycle), with all operands. That the
2+ of HALT is read as 2 is the model's choice (log entry 21). (70_reset_and_hazards.md section 4.) -/
def Obligations.CycleCountsOfTheTable : Prop :=
  ∀ (a b c : Reg) (k : Byte) (d : BitVec 10) (e : BitVec 12) (f : Flags),
    (∀ i ∈ [Instr.add a b c, .sub a b c, .and a b c, .or a b c, .xor a b c, .addi a k, .subi a k, .ldl a k, .ldh a k,
        .ld a b c, .st a b c, .sl0 a b, .sl1 a b, .sr0 a b, .sr1 a b, .not a b, .ldsp a, .rts, .pop a, .push a, .jmpr a,
        .jmp a, .jsrr a, .jsr a, .jmpd d, .jsrd e], cyclesOf i f = 4) ∧
    cyclesOf .nop f = 3 ∧ cyclesOf .halt f = 2 ∧
    ∀ p ∈ [(Instr.jmpnr a, f.n), (.jmpzr a, f.z), (.jmpcr a, f.c), (.jmpvr a, f.v), (.jmpn a, f.n), (.jmpz a, f.z),
        (.jmpc a, f.c), (.jmpv a, f.v), (.jmpnd d, f.n), (.jmpzd d, f.z), (.jmpcd d, f.c), (.jmpvd d, f.v)],
      (p.2 = false → cyclesOf p.1 f = 3) ∧ (p.2 = true → cyclesOf p.1 f = 4)

/-- For every state and number of steps: if each of the first k steps starts in a state that is not halted and the run
completes, the cycles of the run are at least 2k and at most 4k. The counts are those of the suggested organisation,
HALT's 2+ read as 2 (log entry 21). (70_reset_and_hazards.md section 4.) -/
def Obligations.AverageCyclesBetweenTwoAndFour : Prop :=
  ∀ (k : Nat) (s t : State), run k s = .next t →
    (∀ j < k, ∀ u, run j s = .next u → u.halted = false) →
    2 * k ≤ runCycles k s ∧ runCycles k s ≤ 4 * k

/-- For every state that is not halted whose word at PC decodes to i, and any contents of RA, RB and RALU: the
organisation at Sfetch, clocked for the cycle count of i under the flags, ends with the architectural state of the
step, in Shalt if i is HALT and in Sfetch otherwise. The transitions and enables are the spec's reconstruction (log
entry 22), HALT's 2+ cycles are read as 2 (log entry 21). (70_reset_and_hazards.md sections 4 and 5, 00_scope.md
section 3.) -/
def Obligations.OrganisationRefinesTheStep : Prop :=
  ∀ (s : State) (i : Instr) (ra rb ralu : Word), s.halted = false → decode (s.mem.readWord s.pc) = .ok i →
    ∃ t ra' rb' ralu', step s = .next t ∧
      clocks (cyclesOf i s.flags) (atFetch s ra rb ralu) =
        .next ⟨t, ra', rb', ralu', if i = .halt then .shalt else .sfetch⟩

/-- For every state that is not halted whose word at PC decodes to i: the transfers on the organisation's bus during the
cycles of i are the read at PC, followed by the data read or the data write at the address listed for i in the state
after the fetch, if there is one, and nothing else. The bus of each state is the spec's derivation (log entry 22).
(20_memory.md sections 1, 5 and 6, 70_reset_and_hazards.md section 5.) -/
def Obligations.OneFetchAndAtMostOneDataAccess : Prop :=
  ∀ (s : State) (i : Instr) (ra rb ralu : Word), s.halted = false → decode (s.mem.readWord s.pc) = .ok i →
    ∃ t data, step s = .next t ∧
      (busTrace (cyclesOf i s.flags) (atFetch s ra rb ralu)).filter (· ≠ .idle) =
        .read s.pc ::
          ((dataReadAddress i { s with ir := s.mem.readWord s.pc, pc := s.pc + 1 }).toList.map BusCycle.read ++
           (dataWriteAddress i { s with ir := s.mem.readWord s.pc, pc := s.pc + 1 }).toList.map
             (fun a => BusCycle.write a data)) ∧
      ∀ a, dataWriteAddress i { s with ir := s.mem.readWord s.pc, pc := s.pc + 1 } = some a →
        t.mem.readWord a = data

/-- From every state of the organisation and for every draw: after the reset event the FSM is in Sfetch, the architectural
state is that of the reset event on the machine, RA, RB and RALU are the draw's, and the bus carries the read of
0000h. That reset acts between instructions is D14 (log entry 15), that RA, RB and RALU may be anything log entry 31.
(70_reset_and_hazards.md sections 1 and 5, 46_nop_halt.md section HALT.) -/
def Obligations.ResetTakesTheOrganisationToSfetch : Prop :=
  ∀ (d : OrganisationDraw) (o : Organisation),
    organisationReset d o = ⟨processorReset d.registers o.arch, d.ra, d.rb, d.ralu, .sfetch⟩ ∧
    busNow (organisationReset d o) = .read 0

/-- For each of the 15 jumps, in every state with it at PC and with any contents of RA, RB and RALU: three cycles from
Sfetch leave in RALU the destination (the register, or the address after the jump plus the register or the signed
displacement, modulo 65536), whatever the flag, and the architectural state as the fetch left it; the FSM is in Sjmp
if the jump is taken and in Sfetch if it is not. That a jump not taken writes RALU as well is read from the spec by
inference (log entry 30), the transitions are log entry 22, the wraps D9 (log entry 13). (44_jumps.md section 1,
70_reset_and_hazards.md section 5.) -/
def Obligations.JumpTargetReachesRaluTakenOrNot : Prop :=
  ∀ (s : State) (rs1 : Reg) (d : BitVec 10) (ra rb ralu : Word),
    let next : Int := s.pc.toNat + 1
    let relative : Int := (next + (s.reg rs1).toNat) % 65536
    let absolute : Int := (s.reg rs1).toNat
    let displaced : Int := (next + d.toInt) % 65536
    ∀ j ∈ [(Instr.jmpr rs1, relative, true), (.jmpnr rs1, relative, s.flags.n), (.jmpzr rs1, relative, s.flags.z),
        (.jmpcr rs1, relative, s.flags.c), (.jmpvr rs1, relative, s.flags.v), (.jmp rs1, absolute, true),
        (.jmpn rs1, absolute, s.flags.n), (.jmpz rs1, absolute, s.flags.z), (.jmpc rs1, absolute, s.flags.c),
        (.jmpv rs1, absolute, s.flags.v), (.jmpd d, displaced, true), (.jmpnd d, displaced, s.flags.n),
        (.jmpzd d, displaced, s.flags.z), (.jmpcd d, displaced, s.flags.c), (.jmpvd d, displaced, s.flags.v)],
      decode (s.mem.readWord s.pc) = .ok j.1 →
      ∃ o, clocks 3 (atFetch s ra rb ralu) = .next o ∧ (o.ralu.toNat : Int) = j.2.1 ∧
        o.arch = { s with ir := s.mem.readWord s.pc, pc := s.pc + 1 } ∧
        o.fsm = if j.2.2 then .sjmp else .sfetch

/-- For each of ADD, SUB, AND, OR, XOR, LD and ST with its major opcode: its word for any three registers is 4096 times
the opcode plus 256 rt plus 16 rs1 plus rs2, and that word decodes to it with these registers, so all 16 values of
each register field are legal; and every word with that opcode decodes to it with the registers its bits 11 to 8, 7 to
4 and 3 to 0 name. (R62.) -/
def Obligations.FormatRRRFieldsAreReadAndWritten : Prop :=
  ∀ f ∈ [((0 : Nat), Instr.add), (1, Instr.sub), (2, Instr.and), (3, Instr.or), (4, Instr.xor), (9, Instr.ld), (10, Instr.st)],
    (∀ rt rs1 rs2 : Reg,
      (encode (f.2 rt rs1 rs2)).toNat = 4096 * f.1 + 256 * rt.toNat + 16 * rs1.toNat + rs2.toNat ∧
      decode (encode (f.2 rt rs1 rs2)) = .ok (f.2 rt rs1 rs2)) ∧
    ∀ w : Word, w.toNat / 4096 = f.1 →
      decode w = .ok (f.2 (BitVec.ofNat 4 (w.toNat / 256)) (BitVec.ofNat 4 (w.toNat / 16)) (BitVec.ofNat 4 w.toNat))
end

