-- ==== Sys2Proof/Laws/Decode.lean ====
section
/-!
SUPPORT. The fields of a word, the formats and the opcode table's masks as arithmetic on numbers, the fields of a word built
by each format, and the decoder without its decided-off strict check.
-/

namespace Sys2Proof

theorem decode_eq (w : Word) : decode w = decodeFields w := by
  simp [decode, Config.strictZeroFields]

/-! The fields as quotients and remainders (spec/30_encoding.md R61). -/

theorem toNat_fieldOp (w : Word) : (fieldOp w).toNat = w.toNat / 4096 % 16 := by
  simp [fieldOp, BitVec.extractLsb'_toNat, Nat.shiftRight_eq_div_pow]

theorem toNat_fieldRt (w : Word) : (fieldRt w).toNat = w.toNat / 256 % 16 := by
  simp [fieldRt, BitVec.extractLsb'_toNat, Nat.shiftRight_eq_div_pow]

theorem toNat_fieldRs1 (w : Word) : (fieldRs1 w).toNat = w.toNat / 16 % 16 := by
  simp [fieldRs1, BitVec.extractLsb'_toNat, Nat.shiftRight_eq_div_pow]

theorem toNat_fieldRs2 (w : Word) : (fieldRs2 w).toNat = w.toNat % 16 := by
  simp [fieldRs2, BitVec.extractLsb'_toNat, Nat.shiftRight_eq_div_pow]

theorem toNat_fieldSub (w : Word) : (fieldSub w).toNat = w.toNat % 16 := by
  simp [fieldSub, BitVec.extractLsb'_toNat, Nat.shiftRight_eq_div_pow]

theorem toNat_fieldImm8 (w : Word) : (fieldImm8 w).toNat = w.toNat % 256 := by
  simp [fieldImm8, BitVec.extractLsb'_toNat, Nat.shiftRight_eq_div_pow]

theorem toNat_fieldCond (w : Word) : (fieldCond w).toNat = w.toNat / 1024 % 4 := by
  simp [fieldCond, BitVec.extractLsb'_toNat, Nat.shiftRight_eq_div_pow]

theorem toNat_fieldDisp10 (w : Word) : (fieldDisp10 w).toNat = w.toNat % 1024 := by
  simp [fieldDisp10, BitVec.extractLsb'_toNat, Nat.shiftRight_eq_div_pow]

theorem toNat_fieldDisp12 (w : Word) : (fieldDisp12 w).toNat = w.toNat % 4096 := by
  simp [fieldDisp12, BitVec.extractLsb'_toNat, Nat.shiftRight_eq_div_pow]

/-! The formats as sums (R62 to R66). -/

theorem toNat_append_mul {w v : Nat} (x : BitVec w) (y : BitVec v) : (x ++ y).toNat = x.toNat * 2 ^ v + y.toNat := by
  rw [BitVec.toNat_append, ← Nat.shiftLeft_add_eq_or_of_lt y.isLt, Nat.shiftLeft_eq]

section Formats

variable (op rt rs1 rs2 sub : BitVec 4) (c : Byte) (cond : BitVec 2) (d10 : BitVec 10) (d12 : BitVec 12)

theorem toNat_encodeRRR :
    (encodeRRR op rt rs1 rs2).toNat = op.toNat * 4096 + rt.toNat * 256 + rs1.toNat * 16 + rs2.toNat := by
  show BitVec.toNat (w := 12 + 4) ((op ++ rt ++ rs1 : BitVec 12) ++ rs2) = _
  rw [toNat_append_mul]
  show BitVec.toNat (w := 8 + 4) ((op ++ rt : BitVec 8) ++ rs1) * _ + _ = _
  rw [toNat_append_mul, toNat_append_mul]; omega

theorem toNat_encodeRI : (encodeRI op rt c).toNat = op.toNat * 4096 + rt.toNat * 256 + c.toNat := by
  show BitVec.toNat (w := 8 + 8) ((op ++ rt : BitVec 8) ++ c) = _
  rw [toNat_append_mul, toNat_append_mul]; omega

theorem toNat_encodeRS :
    (encodeRS op rt rs1 sub).toNat = op.toNat * 4096 + rt.toNat * 256 + rs1.toNat * 16 + sub.toNat :=
  toNat_encodeRRR op rt rs1 sub

theorem toNat_encodeD10 : (encodeD10 op cond d10).toNat = op.toNat * 4096 + cond.toNat * 1024 + d10.toNat := by
  show BitVec.toNat (w := 6 + 10) ((op ++ cond : BitVec 6) ++ d10) = _
  rw [toNat_append_mul, toNat_append_mul]; omega

theorem toNat_encodeD12 : (encodeD12 op d12).toNat = op.toNat * 4096 + d12.toNat := by
  show BitVec.toNat (w := 4 + 12) (op ++ d12) = _
  rw [toNat_append_mul]; omega

/-! What each field reads in a word of each format. -/

@[simp] theorem fieldOp_encodeRRR : fieldOp (encodeRRR op rt rs1 rs2) = op := by
  apply BitVec.eq_of_toNat_eq
  rw [toNat_fieldOp, toNat_encodeRRR]; omega

@[simp] theorem fieldRt_encodeRRR : fieldRt (encodeRRR op rt rs1 rs2) = rt := by
  apply BitVec.eq_of_toNat_eq
  rw [toNat_fieldRt, toNat_encodeRRR]; omega

@[simp] theorem fieldRs1_encodeRRR : fieldRs1 (encodeRRR op rt rs1 rs2) = rs1 := by
  apply BitVec.eq_of_toNat_eq
  rw [toNat_fieldRs1, toNat_encodeRRR]; omega

@[simp] theorem fieldRs2_encodeRRR : fieldRs2 (encodeRRR op rt rs1 rs2) = rs2 := by
  apply BitVec.eq_of_toNat_eq
  rw [toNat_fieldRs2, toNat_encodeRRR]; omega

@[simp] theorem fieldOp_encodeRI : fieldOp (encodeRI op rt c) = op := by
  apply BitVec.eq_of_toNat_eq
  rw [toNat_fieldOp, toNat_encodeRI]; omega

@[simp] theorem fieldRt_encodeRI : fieldRt (encodeRI op rt c) = rt := by
  apply BitVec.eq_of_toNat_eq
  rw [toNat_fieldRt, toNat_encodeRI]; omega

@[simp] theorem fieldImm8_encodeRI : fieldImm8 (encodeRI op rt c) = c := by
  apply BitVec.eq_of_toNat_eq
  rw [toNat_fieldImm8, toNat_encodeRI]; omega

@[simp] theorem fieldOp_encodeRS : fieldOp (encodeRS op rt rs1 sub) = op := by
  apply BitVec.eq_of_toNat_eq
  rw [toNat_fieldOp, toNat_encodeRS]; omega

@[simp] theorem fieldRt_encodeRS : fieldRt (encodeRS op rt rs1 sub) = rt := by
  apply BitVec.eq_of_toNat_eq
  rw [toNat_fieldRt, toNat_encodeRS]; omega

@[simp] theorem fieldRs1_encodeRS : fieldRs1 (encodeRS op rt rs1 sub) = rs1 := by
  apply BitVec.eq_of_toNat_eq
  rw [toNat_fieldRs1, toNat_encodeRS]; omega

@[simp] theorem fieldSub_encodeRS : fieldSub (encodeRS op rt rs1 sub) = sub := by
  apply BitVec.eq_of_toNat_eq
  rw [toNat_fieldSub, toNat_encodeRS]; omega

@[simp] theorem fieldOp_encodeD10 : fieldOp (encodeD10 op cond d10) = op := by
  apply BitVec.eq_of_toNat_eq
  rw [toNat_fieldOp, toNat_encodeD10]; omega

@[simp] theorem fieldCond_encodeD10 : fieldCond (encodeD10 op cond d10) = cond := by
  apply BitVec.eq_of_toNat_eq
  rw [toNat_fieldCond, toNat_encodeD10]; omega

@[simp] theorem fieldDisp10_encodeD10 : fieldDisp10 (encodeD10 op cond d10) = d10 := by
  apply BitVec.eq_of_toNat_eq
  rw [toNat_fieldDisp10, toNat_encodeD10]; omega

@[simp] theorem fieldOp_encodeD12 : fieldOp (encodeD12 op d12) = op := by
  apply BitVec.eq_of_toNat_eq
  rw [toNat_fieldOp, toNat_encodeD12]; omega

@[simp] theorem fieldDisp12_encodeD12 : fieldDisp12 (encodeD12 op d12) = d12 := by
  apply BitVec.eq_of_toNat_eq
  rw [toNat_fieldDisp12, toNat_encodeD12]; omega

end Formats

/-! The opcode table's masks as quotients and remainders (spec/30_encoding.md R72 to R74). -/

theorem toNat_and_or (w x y : Word) (h : x &&& y = 0) :
    (w &&& (x ||| y)).toNat = (w &&& x).toNat + (w &&& y).toNat := by
  have h0 : (w &&& x) &&& (w &&& y) = 0 := by
    rw [show (w &&& x) &&& (w &&& y) = w &&& (x &&& y) by ext i hi; simp; cases w[i] <;> simp, h]; simp
  rw [← BitVec.toNat_add_of_and_eq_zero h0, BitVec.add_eq_or_of_and_eq_zero _ _ h0]
  congr 1; ext i hi; simp; cases w[i] <;> simp

theorem toNat_and_low (w : Word) (k : Nat) (hk : k ≤ 16) : (w &&& BitVec.ofNat 16 (2 ^ k - 1)).toNat = w.toNat % 2 ^ k := by
  have : 2 ^ k ≤ 2 ^ 16 := Nat.pow_le_pow_right (by omega) hk
  have : 0 < 2 ^ k := by positivity
  rw [BitVec.toNat_and, BitVec.toNat_ofNat, Nat.mod_eq_of_lt (by omega), Nat.and_two_pow_sub_one_eq_mod]

theorem toNat_and_high (w m : Word) (k : Nat) (hk : k ≤ 16) (hm : m = ~~~ BitVec.ofNat 16 (2 ^ k - 1)) :
    (w &&& m).toNat = w.toNat - w.toNat % 2 ^ k := by
  have h := toNat_and_or w (BitVec.ofNat 16 (2 ^ k - 1)) m (by subst hm; ext i hi; simp)
  have ha : BitVec.ofNat 16 (2 ^ k - 1) ||| m = BitVec.allOnes 16 := by subst hm; ext i hi; simp
  rw [toNat_and_low w k hk, ha, BitVec.and_allOnes] at h
  omega

theorem toNat_and_F000 (w : Word) : (w &&& 0xF000#16).toNat = w.toNat / 4096 * 4096 := by
  rw [toNat_and_high w _ 12 (by omega) (by decide)]; omega

theorem toNat_and_FC00 (w : Word) : (w &&& 0xFC00#16).toNat = w.toNat / 1024 * 1024 := by
  rw [toNat_and_high w _ 10 (by omega) (by decide)]; omega

theorem toNat_and_F00F (w : Word) : (w &&& 0xF00F#16).toNat = w.toNat / 4096 * 4096 + w.toNat % 16 := by
  rw [show 0xF00F#16 = 0xF000#16 ||| BitVec.ofNat 16 (2 ^ 4 - 1) by decide, toNat_and_or _ _ _ (by decide),
    toNat_and_F000, toNat_and_low _ 4 (by omega)]; omega

theorem toNat_and_F0FF (w : Word) : (w &&& 0xF0FF#16).toNat = w.toNat / 4096 * 4096 + w.toNat % 256 := by
  rw [show 0xF0FF#16 = 0xF000#16 ||| BitVec.ofNat 16 (2 ^ 8 - 1) by decide, toNat_and_or _ _ _ (by decide),
    toNat_and_F000, toNat_and_low _ 8 (by omega)]; omega

theorem toNat_and_FF0F (w : Word) : (w &&& 0xFF0F#16).toNat = w.toNat / 256 * 256 + w.toNat % 16 := by
  rw [show 0xFF0F#16 = 0xFF00#16 ||| BitVec.ofNat 16 (2 ^ 4 - 1) by decide, toNat_and_or _ _ _ (by decide),
    toNat_and_high w _ 8 (by omega) (by decide), toNat_and_low _ 4 (by omega)]
  omega

end Sys2Proof
end

