-- ==== Sys2Proof/Laws/Memory.lean ====
section
/-!
SUPPORT. The laws of memory: a read after a write, cell by cell and word by word, and the canonical form.
-/

namespace Sys2Proof.Machine

theorem readByte_filter (m : Memory) (k j : Nat) :
    Memory.readByte (m.filter (fun cell => cell.1 ≠ k)) j = if j = k then Config.unwrittenByte else m.readByte j := by
  induction m with
  | nil => simp [Memory.readByte]
  | cons cell rest ih =>
    obtain ⟨i, b⟩ := cell
    simp only [List.filter_cons, Memory.readByte]
    by_cases hik : i = k
    · subst hik
      simp only [ne_eq, not_true_eq_false, decide_false, Bool.false_eq_true, if_false, ih]
      by_cases hj : j = i
      · simp [hj]
      · simp [hj, Ne.symm hj]
    · simp only [ne_eq, hik, not_false_eq_true, decide_true, if_true, Memory.readByte, ih]
      by_cases hj : j = k
      · subst hj; simp [hik]
      · simp [hj]

theorem readByte_insertByte (m : Memory) (k j : Nat) (b : Byte) (h : ∀ cell ∈ m, cell.1 ≠ k) :
    Memory.readByte (Memory.insertByte k b m) j = if j = k then b else m.readByte j := by
  induction m with
  | nil => simp [Memory.insertByte, Memory.readByte, eq_comm]
  | cons cell rest ih =>
    obtain ⟨i, c⟩ := cell
    have hi : i ≠ k := h (i, c) (by simp)
    simp only [Memory.insertByte]
    split
    · simp only [Memory.readByte, eq_comm (a := k)]
    · simp only [Memory.readByte, ih fun cell hc => h cell (by simp [hc])]
      by_cases hj : j = k
      · subst hj; simp [hi]
      · simp [hj]

/-- A byte read back after a write: the byte written, or what was there before. In every memory, canonical or not. -/
theorem readByte_writeByte (m : Memory) (k j : Nat) (b : Byte) :
    (m.writeByte k b).readByte j = if j = k then b else m.readByte j := by
  unfold Memory.writeByte
  split
  · simp only [readByte_filter, *]
  · rw [readByte_insertByte _ _ _ _ (by simp), readByte_filter]
    split <;> rfl

theorem word_halves (v : Word) : (v.extractLsb' 8 8 ++ v.extractLsb' 0 8 : Word) = v := by
  ext i hi
  simp only [BitVec.getElem_append, BitVec.getElem_extractLsb']
  by_cases h : i < 8 <;> simp [h, BitVec.getLsbD_eq_getElem, hi]
  rw [BitVec.getLsbD_eq_getElem (by omega)]; congr 1; omega

/-- A word read back at the address written. -/
@[simp] theorem readWord_writeWord_same (m : Memory) (a v : Word) : (m.writeWord a v).readWord a = v := by
  simp [Memory.readWord, Memory.writeWord, readByte_writeByte, lowCell, highCell, word_halves]

/-- A word read at another address than the one written. -/
@[simp] theorem readWord_writeWord_other (m : Memory) (a b v : Word) (h : b ≠ a) :
    (m.writeWord a v).readWord b = m.readWord b := by
  have hn : b.toNat ≠ a.toNat := fun e => h (BitVec.eq_of_toNat_eq e)
  have h1 : 2 * b.toNat ≠ 2 * a.toNat := by omega
  have h2 : 2 * b.toNat ≠ 2 * a.toNat + 1 := by omega
  have h3 : 2 * b.toNat + 1 ≠ 2 * a.toNat := by omega
  simp [Memory.readWord, Memory.writeWord, readByte_writeByte, lowCell, highCell, hn, h2, h3]

theorem readWord_writeWord (m : Memory) (a b v : Word) :
    (m.writeWord a v).readWord b = if b = a then v else m.readWord b := by
  split
  · subst b; simp
  · simp [*]

/-- A byte outside the two cells of the word written is as before. -/
theorem readByte_writeWord_other (m : Memory) (a v : Word) (k : Nat) (hl : k ≠ lowCell a) (hh : k ≠ highCell a) :
    (m.writeWord a v).readByte k = m.readByte k := by
  simp [Memory.writeWord, readByte_writeByte, hl, hh]

theorem mem_insertByte (k : Nat) (b : Byte) (m : Memory) (cell : Host.Cell) :
    cell ∈ Memory.insertByte k b m ↔ cell = (k, b) ∨ cell ∈ m := by
  induction m with
  | nil => simp [Memory.insertByte]
  | cons c rest ih =>
    simp only [Memory.insertByte]
    split
    · simp
    · simp only [List.mem_cons, ih]; tauto

theorem pairwise_insertByte (k : Nat) (b : Byte) (m : Memory) (hs : m.Pairwise (fun x y => x.1 < y.1))
    (hk : ∀ cell ∈ m, cell.1 ≠ k) : (Memory.insertByte k b m).Pairwise (fun x y => x.1 < y.1) := by
  induction m with
  | nil => simp [Memory.insertByte]
  | cons c rest ih =>
    rw [List.pairwise_cons] at hs
    simp only [Memory.insertByte]
    split
    · rename_i hlt
      refine List.pairwise_cons.2 ⟨fun x hx => ?_, List.pairwise_cons.2 hs⟩
      rcases List.mem_cons.1 hx with rfl | hx
      · exact hlt
      · exact Nat.lt_trans hlt (hs.1 x hx)
    · rename_i hlt
      refine List.pairwise_cons.2 ⟨fun x hx => ?_, ih hs.2 fun x hx => hk x (by simp [hx])⟩
      rcases (mem_insertByte k b rest x).1 hx with rfl | hx
      · have := hk c (by simp)
        simp only; omega
      · exact hs.1 x hx

/-- Storing a byte keeps the canonical form. -/
theorem wf_writeByte (m : Memory) (k : Nat) (b : Byte) (h : m.wf) (hk : k < Memory.limit) : (m.writeByte k b).wf := by
  have hf : (m.filter (fun cell => cell.1 ≠ k)).Pairwise (fun x y => x.1 < y.1) := h.1.filter _
  unfold Memory.writeByte
  simp only
  split
  · exact ⟨hf, fun cell hc => h.2 cell (List.mem_filter.1 hc).1⟩
  · rename_i hb
    refine ⟨pairwise_insertByte k b _ hf (by simp), fun cell hc => ?_⟩
    rcases (mem_insertByte k b _ cell).1 hc with rfl | hc
    · exact ⟨hb, hk⟩
    · exact h.2 cell (List.mem_filter.1 hc).1

theorem lowCell_lt (a : Word) : lowCell a < Memory.limit := by
  have := a.isLt; simp only [lowCell, Memory.limit]; omega

theorem highCell_lt (a : Word) : highCell a < Memory.limit := by
  have := a.isLt; simp only [highCell, Memory.limit]; omega

/-- Storing a word keeps the canonical form. -/
theorem wf_writeWord (m : Memory) (a v : Word) (h : m.wf) : (m.writeWord a v).wf :=
  wf_writeByte _ _ _ (wf_writeByte _ _ _ h (lowCell_lt a)) (highCell_lt a)

/-- The memory at reset is canonical. -/
theorem wf_reset : State.reset.mem.wf := by
  simp [State.reset, Memory.wf]

end Sys2Proof.Machine
end

