-- ==== Sys2Proof/Laws/State.lean ====
section
/-!
SUPPORT. One lemma per field per update of State, so that no proof unfolds a record update.
-/

namespace Sys2Proof.Machine

variable (s : State) (r q : Reg) (v w : Word) (c o : Bool)

@[simp] theorem reg_setReg_same : (s.setReg r v).reg r = v := by
  simp [State.reg, State.setReg]

@[simp] theorem reg_setReg_other (h : q ≠ r) : (s.setReg r v).reg q = s.reg q := by
  have : r.toNat ≠ q.toNat := fun e => h (BitVec.eq_of_toNat_eq e.symm)
  simp [State.reg, State.setReg, this]

theorem reg_setReg : (s.setReg r v).reg q = if q = r then v else s.reg q := by
  split
  · subst q; simp
  · simp [*]

@[simp] theorem pc_setReg : (s.setReg r v).pc = s.pc := rfl
@[simp] theorem sp_setReg : (s.setReg r v).sp = s.sp := rfl
@[simp] theorem ir_setReg : (s.setReg r v).ir = s.ir := rfl
@[simp] theorem flags_setReg : (s.setReg r v).flags = s.flags := rfl
@[simp] theorem mem_setReg : (s.setReg r v).mem = s.mem := rfl
@[simp] theorem halted_setReg : (s.setReg r v).halted = s.halted := rfl

@[simp] theorem reg_setPc : (s.setPc v).reg r = s.reg r := rfl
@[simp] theorem regs_setPc : (s.setPc v).regs = s.regs := rfl
@[simp] theorem pc_setPc : (s.setPc v).pc = v := rfl
@[simp] theorem sp_setPc : (s.setPc v).sp = s.sp := rfl
@[simp] theorem ir_setPc : (s.setPc v).ir = s.ir := rfl
@[simp] theorem flags_setPc : (s.setPc v).flags = s.flags := rfl
@[simp] theorem mem_setPc : (s.setPc v).mem = s.mem := rfl
@[simp] theorem halted_setPc : (s.setPc v).halted = s.halted := rfl

@[simp] theorem reg_setSp : (s.setSp v).reg r = s.reg r := rfl
@[simp] theorem regs_setSp : (s.setSp v).regs = s.regs := rfl
@[simp] theorem pc_setSp : (s.setSp v).pc = s.pc := rfl
@[simp] theorem sp_setSp : (s.setSp v).sp = v := rfl
@[simp] theorem ir_setSp : (s.setSp v).ir = s.ir := rfl
@[simp] theorem flags_setSp : (s.setSp v).flags = s.flags := rfl
@[simp] theorem mem_setSp : (s.setSp v).mem = s.mem := rfl
@[simp] theorem halted_setSp : (s.setSp v).halted = s.halted := rfl

@[simp] theorem reg_setHalted : s.setHalted.reg r = s.reg r := rfl
@[simp] theorem regs_setHalted : s.setHalted.regs = s.regs := rfl
@[simp] theorem pc_setHalted : s.setHalted.pc = s.pc := rfl
@[simp] theorem sp_setHalted : s.setHalted.sp = s.sp := rfl
@[simp] theorem ir_setHalted : s.setHalted.ir = s.ir := rfl
@[simp] theorem flags_setHalted : s.setHalted.flags = s.flags := rfl
@[simp] theorem mem_setHalted : s.setHalted.mem = s.mem := rfl
@[simp] theorem halted_setHalted : s.setHalted.halted = true := rfl

@[simp] theorem reg_setNZ : (s.setNZ w).reg r = s.reg r := rfl
@[simp] theorem regs_setNZ : (s.setNZ w).regs = s.regs := rfl
@[simp] theorem pc_setNZ : (s.setNZ w).pc = s.pc := rfl
@[simp] theorem sp_setNZ : (s.setNZ w).sp = s.sp := rfl
@[simp] theorem ir_setNZ : (s.setNZ w).ir = s.ir := rfl
theorem flags_setNZ : (s.setNZ w).flags = ⟨negativeFlag w, zeroFlag w, s.flags.c, s.flags.v⟩ := rfl
@[simp] theorem n_setNZ : (s.setNZ w).flags.n = negativeFlag w := rfl
@[simp] theorem z_setNZ : (s.setNZ w).flags.z = zeroFlag w := rfl
@[simp] theorem c_setNZ : (s.setNZ w).flags.c = s.flags.c := rfl
@[simp] theorem v_setNZ : (s.setNZ w).flags.v = s.flags.v := rfl
@[simp] theorem mem_setNZ : (s.setNZ w).mem = s.mem := rfl
@[simp] theorem halted_setNZ : (s.setNZ w).halted = s.halted := rfl

@[simp] theorem reg_setNZCV : (s.setNZCV w c o).reg r = s.reg r := rfl
@[simp] theorem regs_setNZCV : (s.setNZCV w c o).regs = s.regs := rfl
@[simp] theorem pc_setNZCV : (s.setNZCV w c o).pc = s.pc := rfl
@[simp] theorem sp_setNZCV : (s.setNZCV w c o).sp = s.sp := rfl
@[simp] theorem ir_setNZCV : (s.setNZCV w c o).ir = s.ir := rfl
@[simp] theorem flags_setNZCV : (s.setNZCV w c o).flags = ⟨negativeFlag w, zeroFlag w, c, o⟩ := rfl
@[simp] theorem mem_setNZCV : (s.setNZCV w c o).mem = s.mem := rfl
@[simp] theorem halted_setNZCV : (s.setNZCV w c o).halted = s.halted := rfl

/-- Two states with the same registers, one by one, have the same bank. -/
theorem regs_eq_of_reg {s t : State} (h : ∀ r, s.reg r = t.reg r) : s.regs = t.regs := by
  apply Vector.ext
  intro k hk
  have := h (BitVec.ofNat 4 k)
  simpa [State.reg, Nat.mod_eq_of_lt hk] using this

end Sys2Proof.Machine
end

