-- ==== Sys2Proof/Laws/Ops.lean ====
section
/-!
SUPPORT. What each shared operation can do, said once: the accesses (every address is populated), the stack, the fetch, and the
shared forms of the meanings.
-/

namespace Sys2Proof.Machine

@[simp] theorem memRead_eq (s : State) (a : Word) : memRead s a = .ok (s.mem.readWord a) := rfl

@[simp] theorem memWrite_eq (s : State) (a v : Word) : memWrite s a v = .ok { s with mem := s.mem.writeWord a v } := rfl

/-- What a push does: everything it changes is `mem` and `sp`. -/
@[simp] theorem pushWord_eq (s : State) (v : Word) :
    pushWord s v = .ok { s with mem := s.mem.writeWord s.sp v, sp := s.sp - 1 } := rfl

/-- What a pop does: it answers the word above `sp`, and everything it changes is `sp`. -/
@[simp] theorem popWord_eq (s : State) :
    popWord s = .ok (s.mem.readWord (s.sp + 1), { s with sp := s.sp + 1 }) := rfl

/-- What a fetch does: everything it changes is `ir` and `pc`. -/
@[simp] theorem fetch_eq (s : State) : fetch s = .ok { s with ir := s.mem.readWord s.pc, pc := s.pc + 1 } := rfl

theorem jumpWhen_eq (b : Bool) (target : Word) (s : State) :
    jumpWhen b target s = .next { s with pc := if b then target else s.pc } := by
  cases b <;> rfl

theorem callTo_eq (target : Word) (s : State) :
    callTo target s = .next { s with mem := s.mem.writeWord s.sp s.pc, sp := s.sp - 1, pc := target } := rfl

/-- What a step does, in the three cases there are. -/
theorem step_halted (s : State) (h : s.halted = true) : step s = .next s := by
  simp [step, h]

theorem step_decoded (s : State) (i : Instr) (h : s.halted = false) (hd : decode (s.mem.readWord s.pc) = .ok i) :
    step s = exec i { s with ir := s.mem.readWord s.pc, pc := s.pc + 1 } := by
  simp [step, h, hd]

theorem step_unassigned (s : State) (e : DecodeError) (h : s.halted = false)
    (hd : decode (s.mem.readWord s.pc) = .error e) : step s = .fault (.illegalInstruction (s.mem.readWord s.pc)) := by
  simp [step, h, hd]

end Sys2Proof.Machine
end

