-- ==== Sys2Proof/Laws/Exec.lean ====
section
/-!
SUPPORT. What `exec` does with each instruction, one equation per constructor, so that a proof rewrites with it instead of
unfolding a meaning.
-/

namespace Sys2Proof.Machine

variable (rt rs1 rs2 : Reg) (c : Byte) (d10 : BitVec 10) (d12 : BitVec 12) (s : State)

theorem exec_add :
    exec (.add rt rs1 rs2) s = .next ((s.setReg rt (s.reg rs1 + s.reg rs2)).setNZCV (s.reg rs1 + s.reg rs2)
    (addCarry (s.reg rs1) (s.reg rs2)) (addOverflow (s.reg rs1) (s.reg rs2))) := rfl

theorem exec_sub :
    exec (.sub rt rs1 rs2) s = .next ((s.setReg rt (s.reg rs1 - s.reg rs2)).setNZCV (s.reg rs1 - s.reg rs2)
    (subCarry (s.reg rs1) (s.reg rs2)) (subOverflow (s.reg rs1) (s.reg rs2))) := rfl

theorem exec_and :
    exec (.and rt rs1 rs2) s = .next ((s.setReg rt (s.reg rs1 &&& s.reg rs2)).setNZ (s.reg rs1 &&& s.reg rs2)) := rfl

theorem exec_or :
    exec (.or rt rs1 rs2) s = .next ((s.setReg rt (s.reg rs1 ||| s.reg rs2)).setNZ (s.reg rs1 ||| s.reg rs2)) := rfl

theorem exec_xor :
    exec (.xor rt rs1 rs2) s = .next ((s.setReg rt (s.reg rs1 ^^^ s.reg rs2)).setNZ (s.reg rs1 ^^^ s.reg rs2)) := rfl

theorem exec_addi :
    exec (.addi rt c) s = .next ((s.setReg rt (s.reg rt + zextImm8 c)).setNZCV (s.reg rt + zextImm8 c)
    (addCarry (s.reg rt) (zextImm8 c)) (addOverflow (s.reg rt) (zextImm8 c))) := rfl

theorem exec_subi :
    exec (.subi rt c) s = .next ((s.setReg rt (s.reg rt - zextImm8 c)).setNZCV (s.reg rt - zextImm8 c)
    (subCarry (s.reg rt) (zextImm8 c)) (subOverflow (s.reg rt) (zextImm8 c))) := rfl

theorem exec_ldl :
    exec (.ldl rt c) s = .next (s.setReg rt (replaceLow (s.reg rt) c)) := rfl

theorem exec_ldh :
    exec (.ldh rt c) s = .next (s.setReg rt (replaceHigh (s.reg rt) c)) := rfl

theorem exec_ld :
    exec (.ld rt rs1 rs2) s = .next (s.setReg rt (s.mem.readWord (effectiveAddress s rs1 rs2))) := rfl

theorem exec_st :
    exec (.st rt rs1 rs2) s = .next { s with mem := s.mem.writeWord (effectiveAddress s rs1 rs2) (s.reg rt) } := rfl

theorem exec_sl0 :
    exec (.sl0 rt rs1) s = .next ((s.setReg rt (shiftLeftOne (s.reg rs1) 0)).setNZ (shiftLeftOne (s.reg rs1) 0)) := rfl

theorem exec_sl1 :
    exec (.sl1 rt rs1) s = .next ((s.setReg rt (shiftLeftOne (s.reg rs1) 1)).setNZ (shiftLeftOne (s.reg rs1) 1)) := rfl

theorem exec_sr0 :
    exec (.sr0 rt rs1) s = .next ((s.setReg rt (shiftRightOne 0 (s.reg rs1))).setNZ (shiftRightOne 0 (s.reg rs1))) := rfl

theorem exec_sr1 :
    exec (.sr1 rt rs1) s = .next ((s.setReg rt (shiftRightOne 1 (s.reg rs1))).setNZ (shiftRightOne 1 (s.reg rs1))) := rfl

theorem exec_not :
    exec (.not rt rs1) s = .next ((s.setReg rt (~~~ s.reg rs1)).setNZ (~~~ s.reg rs1)) := rfl

theorem exec_nop :
    exec .nop s = .next s := rfl

theorem exec_halt :
    exec .halt s = .next s.setHalted := rfl

theorem exec_ldsp :
    exec (.ldsp rs1) s = .next (s.setSp (s.reg rs1)) := rfl

theorem exec_rts :
    exec .rts s = .next { s with pc := s.mem.readWord (s.sp + 1), sp := s.sp + 1 } := rfl

theorem exec_pop :
    exec (.pop rt) s = .next ((s.setSp (s.sp + 1)).setReg rt (s.mem.readWord (s.sp + 1))) := rfl

theorem exec_push :
    exec (.push rt) s = .next { s with mem := s.mem.writeWord s.sp (s.reg rt), sp := s.sp - 1 } := rfl

theorem exec_jmpr :
    exec (.jmpr rs1) s = .next { s with pc := relativeTarget s (s.reg rs1) } := rfl

theorem exec_jmpnr :
    exec (.jmpnr rs1) s = .next { s with pc := if s.flags.n then relativeTarget s (s.reg rs1) else s.pc } := jumpWhen_eq _ _ s

theorem exec_jmpzr :
    exec (.jmpzr rs1) s = .next { s with pc := if s.flags.z then relativeTarget s (s.reg rs1) else s.pc } := jumpWhen_eq _ _ s

theorem exec_jmpcr :
    exec (.jmpcr rs1) s = .next { s with pc := if s.flags.c then relativeTarget s (s.reg rs1) else s.pc } := jumpWhen_eq _ _ s

theorem exec_jmpvr :
    exec (.jmpvr rs1) s = .next { s with pc := if s.flags.v then relativeTarget s (s.reg rs1) else s.pc } := jumpWhen_eq _ _ s

theorem exec_jmp :
    exec (.jmp rs1) s = .next { s with pc := s.reg rs1 } := rfl

theorem exec_jmpn :
    exec (.jmpn rs1) s = .next { s with pc := if s.flags.n then s.reg rs1 else s.pc } := jumpWhen_eq _ _ s

theorem exec_jmpz :
    exec (.jmpz rs1) s = .next { s with pc := if s.flags.z then s.reg rs1 else s.pc } := jumpWhen_eq _ _ s

theorem exec_jmpc :
    exec (.jmpc rs1) s = .next { s with pc := if s.flags.c then s.reg rs1 else s.pc } := jumpWhen_eq _ _ s

theorem exec_jmpv :
    exec (.jmpv rs1) s = .next { s with pc := if s.flags.v then s.reg rs1 else s.pc } := jumpWhen_eq _ _ s

theorem exec_jmpd :
    exec (.jmpd d10) s = .next { s with pc := relativeTarget s (sextDisp10 d10) } := rfl

theorem exec_jmpnd :
    exec (.jmpnd d10) s = .next { s with pc := if s.flags.n then relativeTarget s (sextDisp10 d10) else s.pc } := jumpWhen_eq _ _ s

theorem exec_jmpzd :
    exec (.jmpzd d10) s = .next { s with pc := if s.flags.z then relativeTarget s (sextDisp10 d10) else s.pc } := jumpWhen_eq _ _ s

theorem exec_jmpcd :
    exec (.jmpcd d10) s = .next { s with pc := if s.flags.c then relativeTarget s (sextDisp10 d10) else s.pc } := jumpWhen_eq _ _ s

theorem exec_jmpvd :
    exec (.jmpvd d10) s = .next { s with pc := if s.flags.v then relativeTarget s (sextDisp10 d10) else s.pc } := jumpWhen_eq _ _ s

theorem exec_jsrr :
    exec (.jsrr rs1) s = .next { s with mem := s.mem.writeWord s.sp s.pc, sp := s.sp - 1, pc := relativeTarget s (s.reg rs1) } := rfl

theorem exec_jsr :
    exec (.jsr rs1) s = .next { s with mem := s.mem.writeWord s.sp s.pc, sp := s.sp - 1, pc := s.reg rs1 } := rfl

theorem exec_jsrd :
    exec (.jsrd d12) s = .next { s with mem := s.mem.writeWord s.sp s.pc, sp := s.sp - 1, pc := relativeTarget s (sextDisp12 d12) } := rfl

end Sys2Proof.Machine
end

