-- ==== Sys2Proof/Laws/Operands.lean ====
section
/-!
SUPPORT. The flag functions and the operand forms as arithmetic on numbers: what each says of the numbers its words stand for.
-/

namespace Sys2Proof.Machine

/-- N is the sign of the result. -/
theorem negativeFlag_eq (r : Word) : negativeFlag r = decide (r.toInt < 0) := by
  simp [negativeFlag, BitVec.msb_eq_toInt]

/-- Z says that the result is 0. -/
theorem zeroFlag_eq (r : Word) : zeroFlag r = decide (r.toNat = 0) := by
  have h : r = 0 ↔ r.toNat = 0 := ⟨fun e => by simp [e], fun e => BitVec.eq_of_toNat_eq e⟩
  simp only [zeroFlag, ← h]; rfl

/-- V after an addition: the signed sum does not fit in 16 bits. -/
theorem addOverflow_eq (a b : Word) :
    addOverflow a b = decide (a.toInt + b.toInt < -32768 ∨ 32767 < a.toInt + b.toInt) := by
  have ha := a.isLt
  have hb := b.isLt
  have hab : (a + b).toNat = (a.toNat + b.toNat) % 65536 := by simp
  simp only [addOverflow, BitVec.msb_eq_decide, BitVec.toInt_eq_toNat_cond, hab]
  rw [Bool.eq_iff_iff]; simp
  split <;> split <;> omega

/-- V after a subtraction: the signed difference does not fit in 16 bits. -/
theorem subOverflow_eq (a b : Word) :
    subOverflow a b = decide (a.toInt - b.toInt < -32768 ∨ 32767 < a.toInt - b.toInt) := by
  have ha := a.isLt
  have hb := b.isLt
  have hab : (a - b).toNat = (65536 - b.toNat + a.toNat) % 65536 := by simp [BitVec.toNat_sub]
  simp only [subOverflow, BitVec.msb_eq_decide, BitVec.toInt_eq_toNat_cond, hab]
  rw [Bool.eq_iff_iff]; simp
  split <;> split <;> omega

theorem zextImm8_eq (c : Byte) : zextImm8 c = BitVec.ofNat 16 c.toNat := by
  apply BitVec.eq_of_toNat_eq; simp [zextImm8]

/-- One less, modulo 65536: the stack pointer after a push. -/
theorem toNat_sub_one (v : Word) : (v - 1).toNat = (v.toNat + 65535) % 65536 := by
  have := v.isLt
  simp [BitVec.toNat_sub]; omega

theorem toNat_replaceLow (v : Word) (c : Byte) : (replaceLow v c).toNat = v.toNat / 256 * 256 + c.toNat := by
  have h : (replaceLow v c).toNat = (v.extractLsb' 8 8).toNat * 2 ^ 8 + c.toNat :=
    toNat_append_mul (w := 8) (v := 8) _ _
  have := v.isLt
  rw [h]; simp [BitVec.extractLsb'_toNat, Nat.shiftRight_eq_div_pow]; omega

theorem toNat_replaceHigh (v : Word) (c : Byte) : (replaceHigh v c).toNat = c.toNat * 256 + v.toNat % 256 := by
  have h : (replaceHigh v c).toNat = c.toNat * 2 ^ 8 + (v.extractLsb' 0 8).toNat :=
    toNat_append_mul (w := 8) (v := 8) _ _
  rw [h]; simp [BitVec.extractLsb'_toNat]

theorem toNat_shiftLeftOne (v : Word) (b : BitVec 1) : (shiftLeftOne v b).toNat = 2 * v.toNat % 65536 + b.toNat := by
  have h : (shiftLeftOne v b).toNat = (v.extractLsb' 0 15).toNat * 2 ^ 1 + b.toNat :=
    toNat_append_mul (w := 15) (v := 1) _ _
  rw [h]; simp [BitVec.extractLsb'_toNat]; omega

theorem toNat_shiftRightOne (v : Word) (b : BitVec 1) :
    (shiftRightOne b v).toNat = v.toNat / 2 + b.toNat * 32768 := by
  have h : (shiftRightOne b v).toNat = b.toNat * 2 ^ 15 + (v.extractLsb' 1 15).toNat :=
    toNat_append_mul (w := 1) (v := 15) _ _
  have := v.isLt
  rw [h]; simp [BitVec.extractLsb'_toNat, Nat.shiftRight_eq_div_pow]; omega

/-- A word added to one that stands for the signed number `k`. -/
theorem toNat_add_of_toInt (a b : Word) (k : Int) (h : b.toInt = k) :
    ((a + b).toNat : Int) = ((a.toNat : Int) + k) % 65536 := by
  have hb : (b.toNat : Int) = k % 65536 := by
    have := b.isLt
    rw [← h, BitVec.toInt_eq_toNat_cond]; split <;> omega
  rw [BitVec.toNat_add]; push_cast; rw [hb]; omega

theorem toInt_sextDisp10 (d : BitVec 10) : (sextDisp10 d).toInt = d.toInt := by
  simp [sextDisp10, BitVec.toInt_signExtend_of_le]

theorem toInt_sextDisp12 (d : BitVec 12) : (sextDisp12 d).toInt = d.toInt := by
  simp [sextDisp12, BitVec.toInt_signExtend_of_le]

end Sys2Proof.Machine
end

