-- ==== Sys2Proof/Laws/Organisation.lean ====
section
/-!
SUPPORT. What one clock cycle of the organisation can do: the fetch, the register read, the ALU cycle and the cycles in Shalt
(spec/70_reset_and_hazards.md R254, R255); and what the bus carries in each state (spec/20_memory.md R56).
-/

namespace Sys2Proof.Machine

/-- The operands of the ALU, as `ma` and `mb` select them for a class. -/
def aluOperands (c : InstrClass) (s : State) (ra rb : Word) : Word × Word :=
  (if signalMa (some c) then s.ir else ra,
    if signalMb (some c) = 1 then s.sp else if signalMb (some c) = 2 then s.pc else rb)

/-- The flags after the ALU cycle of a class. -/
def aluFlags (c : InstrClass) (f : Flags) (opA opB : Word) : Flags where
  n := if writesNZ c then negativeFlag (aluResult c opA opB) else f.n
  z := if writesNZ c then zeroFlag (aluResult c opA opB) else f.z
  c := if writesCV c then (aluCarryOverflow c opA opB).1 else f.c
  v := if writesCV c then (aluCarryOverflow c opA opB).2 else f.v

theorem control_decoded (o : Organisation) (i : Instr) (h : decode o.arch.ir = .ok i) :
    control o = microinstruction o.fsm (some (instrClass i)) (recognised i o.arch.flags) := by
  simp only [control, h]

theorem control_undecoded (o : Organisation) (e : DecodeError) (h : decode o.arch.ir = .error e) :
    control o = microinstruction o.fsm none false := by
  simp only [control, h]

/-- Some class, recognised or not, drives the cycle: enough where the state alone decides what happens. -/
theorem control_eq (o : Organisation) : ∃ c b, control o = microinstruction o.fsm c b := by
  cases h : decode o.arch.ir with
  | ok i => exact ⟨_, _, control_decoded o i h⟩
  | error e => exact ⟨_, _, control_undecoded o e h⟩

theorem classOf_eq_halt (i : Instr) (f : Flags) : classOf i f = some .halt ↔ i = .halt := by
  unfold classOf
  split <;> cases i <;> simp_all [recognised, instrClass]

theorem afterSalu_ne_shalt (c : Option InstrClass) : afterSalu c ≠ .shalt := by
  cases c with
  | none => simp [afterSalu]
  | some c => cases c <;> simp [afterSalu]

/-- The first cycle: IR takes the word at PC, PC is one further, and the FSM goes to Srreg, or to Shalt for HALT. -/
theorem clock_sfetch (s : State) (i : Instr) (ra rb ralu : Word) (hd : decode (s.mem.readWord s.pc) = .ok i) :
    clock (atFetch s ra rb ralu) =
      let t := { s with ir := s.mem.readWord s.pc, pc := s.pc + 1 }
      .next (if i = .halt then ⟨t.setHalted, ra, rb, ralu, .shalt⟩ else ⟨t, ra, rb, ralu, .srreg⟩) := by
  obtain ⟨c, b, hc⟩ := control_eq (atFetch s ra rb ralu)
  unfold clock
  rw [hc]
  simp only [atFetch, datapath, microinstruction, busCycle, memoryCycle, memRead_eq, signalMad, signalMpc, busAddress]
  simp [hd, nextFsm, classOf_eq_halt]
  split <;> simp

/-- The second cycle: RA and RB take the registers that IR names. -/
theorem clock_srreg (s : State) (i : Instr) (ra rb ralu : Word) (hd : decode s.ir = .ok i) :
    clock ⟨s, ra, rb, ralu, .srreg⟩ =
      .next ⟨s, s.reg (fieldRs1 s.ir),
        if signalMs2 .srreg (some (instrClass i)) then s.reg (fieldRt s.ir) else s.reg (fieldRs2 s.ir), ralu, .salu⟩ := by
  have hc := control_decoded ⟨s, ra, rb, ralu, .srreg⟩ i hd
  unfold clock
  rw [hc]
  simp only [datapath, microinstruction, busCycle, memoryCycle, readPort]
  simp [hd, nextFsm]

/-- The third cycle: RALU takes the ALU's result, the flags are written where the class marks them, and the FSM goes on by the
class recognised. -/
theorem clock_salu (s : State) (i : Instr) (ra rb ralu : Word) (hd : decode s.ir = .ok i) :
    clock ⟨s, ra, rb, ralu, .salu⟩ =
      let ops := aluOperands (instrClass i) s ra rb
      .next ⟨{ s with flags := aluFlags (instrClass i) s.flags ops.1 ops.2 }, ra, rb,
        if writesRalu (instrClass i) then aluResult (instrClass i) ops.1 ops.2 else ralu,
        afterSalu (classOf i s.flags)⟩ := by
  have hc := control_decoded ⟨s, ra, rb, ralu, .salu⟩ i hd
  unfold clock
  rw [hc]
  simp only [datapath, microinstruction, busCycle, memoryCycle]
  simp [hd, nextFsm, afterSalu_ne_shalt, aluOperands, aluFlags]

/-- In Shalt nothing changes (spec/10_state.md R33). -/
theorem clock_shalt (o : Organisation) (hf : o.fsm = .shalt) (hh : o.arch.halted = true) : clock o = .next o := by
  obtain ⟨s, ra, rb, ralu, f⟩ := o
  obtain ⟨regs, pc, sp, ir, flags, mem, halted⟩ := s
  simp only at hf hh
  subst hf hh
  obtain ⟨c, b, hc⟩ := control_eq ⟨⟨regs, pc, sp, ir, flags, mem, true⟩, ra, rb, ralu, .shalt⟩
  unfold clock
  rw [hc]
  simp only [datapath, microinstruction, busCycle, memoryCycle]
  cases h : decode ir <;> simp [h, nextFsm, State.setHalted]

/-- The bus in each state: it is idle in the four states without a transfer. -/
theorem busNow_eq (o : Organisation) :
    busNow o =
      match o.fsm with
      | .sfetch => .read o.arch.pc
      | .sld | .srts | .spop => .read o.ralu
      | .sst => .write o.ralu (o.arch.reg (fieldRt o.arch.ir))
      | .spush => .write o.arch.sp o.rb
      | .ssbrt => .write o.arch.sp o.arch.pc
      | .srreg | .shalt | .salu | .swbk | .sjmp | .sldsp => .idle := by
  obtain ⟨c, b, hc⟩ := control_eq o
  unfold busNow
  rw [hc]
  obtain ⟨s, ra, rb, ralu, f⟩ := o
  cases f <;> simp [busCycle, microinstruction, busAddress, busDataOut, readPort, signalMad, signalMs2]

end Sys2Proof.Machine
end

