-- ==== Sys2Proof/Laws/PerInstr.lean ====
section
/-!
SUPPORT. What a word that decodes to an instruction looks like: the family `DecodedFields`, one lemma per constructor.
-/

namespace Sys2Proof

/-- The fields of `w` are those of `i`: its opcodes, and its operands in their places (spec/30_encoding.md R62 to R66). -/
def Instr.standsIn (w : Word) : Instr → Prop
  | .add rt rs1 rs2 => fieldOp w = 0x0 ∧ fieldRt w = rt ∧ fieldRs1 w = rs1 ∧ fieldRs2 w = rs2
  | .sub rt rs1 rs2 => fieldOp w = 0x1 ∧ fieldRt w = rt ∧ fieldRs1 w = rs1 ∧ fieldRs2 w = rs2
  | .and rt rs1 rs2 => fieldOp w = 0x2 ∧ fieldRt w = rt ∧ fieldRs1 w = rs1 ∧ fieldRs2 w = rs2
  | .or rt rs1 rs2 => fieldOp w = 0x3 ∧ fieldRt w = rt ∧ fieldRs1 w = rs1 ∧ fieldRs2 w = rs2
  | .xor rt rs1 rs2 => fieldOp w = 0x4 ∧ fieldRt w = rt ∧ fieldRs1 w = rs1 ∧ fieldRs2 w = rs2
  | .addi rt c => fieldOp w = 0x5 ∧ fieldRt w = rt ∧ fieldImm8 w = c
  | .subi rt c => fieldOp w = 0x6 ∧ fieldRt w = rt ∧ fieldImm8 w = c
  | .ldl rt c => fieldOp w = 0x7 ∧ fieldRt w = rt ∧ fieldImm8 w = c
  | .ldh rt c => fieldOp w = 0x8 ∧ fieldRt w = rt ∧ fieldImm8 w = c
  | .ld rt rs1 rs2 => fieldOp w = 0x9 ∧ fieldRt w = rt ∧ fieldRs1 w = rs1 ∧ fieldRs2 w = rs2
  | .st rt rs1 rs2 => fieldOp w = 0xA ∧ fieldRt w = rt ∧ fieldRs1 w = rs1 ∧ fieldRs2 w = rs2
  | .sl0 rt rs1 => fieldOp w = 0xB ∧ fieldSub w = 0x0 ∧ fieldRt w = rt ∧ fieldRs1 w = rs1
  | .sl1 rt rs1 => fieldOp w = 0xB ∧ fieldSub w = 0x1 ∧ fieldRt w = rt ∧ fieldRs1 w = rs1
  | .sr0 rt rs1 => fieldOp w = 0xB ∧ fieldSub w = 0x2 ∧ fieldRt w = rt ∧ fieldRs1 w = rs1
  | .sr1 rt rs1 => fieldOp w = 0xB ∧ fieldSub w = 0x3 ∧ fieldRt w = rt ∧ fieldRs1 w = rs1
  | .not rt rs1 => fieldOp w = 0xB ∧ fieldSub w = 0x4 ∧ fieldRt w = rt ∧ fieldRs1 w = rs1
  | .nop => fieldOp w = 0xB ∧ fieldSub w = 0x5
  | .halt => fieldOp w = 0xB ∧ fieldSub w = 0x6
  | .ldsp rs1 => fieldOp w = 0xB ∧ fieldSub w = 0x7 ∧ fieldRs1 w = rs1
  | .rts => fieldOp w = 0xB ∧ fieldSub w = 0x8
  | .pop rt => fieldOp w = 0xB ∧ fieldSub w = 0x9 ∧ fieldRt w = rt
  | .push rt => fieldOp w = 0xB ∧ fieldSub w = 0xA ∧ fieldRt w = rt
  | .jmpr rs1 => fieldOp w = 0xC ∧ fieldSub w = 0x0 ∧ fieldRs1 w = rs1
  | .jmpnr rs1 => fieldOp w = 0xC ∧ fieldSub w = 0x1 ∧ fieldRs1 w = rs1
  | .jmpzr rs1 => fieldOp w = 0xC ∧ fieldSub w = 0x2 ∧ fieldRs1 w = rs1
  | .jmpcr rs1 => fieldOp w = 0xC ∧ fieldSub w = 0x3 ∧ fieldRs1 w = rs1
  | .jmpvr rs1 => fieldOp w = 0xC ∧ fieldSub w = 0x4 ∧ fieldRs1 w = rs1
  | .jmp rs1 => fieldOp w = 0xC ∧ fieldSub w = 0x5 ∧ fieldRs1 w = rs1
  | .jmpn rs1 => fieldOp w = 0xC ∧ fieldSub w = 0x6 ∧ fieldRs1 w = rs1
  | .jmpz rs1 => fieldOp w = 0xC ∧ fieldSub w = 0x7 ∧ fieldRs1 w = rs1
  | .jmpc rs1 => fieldOp w = 0xC ∧ fieldSub w = 0x8 ∧ fieldRs1 w = rs1
  | .jmpv rs1 => fieldOp w = 0xC ∧ fieldSub w = 0x9 ∧ fieldRs1 w = rs1
  | .jsrr rs1 => fieldOp w = 0xC ∧ fieldSub w = 0xA ∧ fieldRs1 w = rs1
  | .jsr rs1 => fieldOp w = 0xC ∧ fieldSub w = 0xB ∧ fieldRs1 w = rs1
  | .jmpd d => fieldOp w = 0xD ∧ fieldDisp10 w = d
  | .jmpnd d => fieldOp w = 0xE ∧ fieldCond w = 0 ∧ fieldDisp10 w = d
  | .jmpzd d => fieldOp w = 0xE ∧ fieldCond w = 1 ∧ fieldDisp10 w = d
  | .jmpcd d => fieldOp w = 0xE ∧ fieldCond w = 2 ∧ fieldDisp10 w = d
  | .jmpvd d => fieldOp w = 0xE ∧ fieldCond w = 3 ∧ fieldDisp10 w = d
  | .jsrd d => fieldOp w = 0xF ∧ fieldDisp12 w = d

theorem eq_ofNat_of_toNat {n : Nat} {x : BitVec n} {k : Nat} (h : x.toNat = k) : x = BitVec.ofNat n k := by
  apply BitVec.eq_of_toNat_eq; simp [← h]

theorem standsIn_of_decodeUnary {w : Word} {i : Instr} (ho : fieldOp w = 0xB) (h : decodeUnary w = .ok i) :
    i.standsIn w := by
  unfold decodeUnary at h
  split at h <;> cases h
  all_goals
    rename_i hs
    simp [Instr.standsIn, ho, eq_ofNat_of_toNat hs]

theorem standsIn_of_decodeJump {w : Word} {i : Instr} (ho : fieldOp w = 0xC) (h : decodeJump w = .ok i) :
    i.standsIn w := by
  unfold decodeJump at h
  split at h <;> cases h
  all_goals
    rename_i hs
    simp [Instr.standsIn, ho, eq_ofNat_of_toNat hs]

theorem standsIn_decodeConditional {w : Word} (ho : fieldOp w = 0xE) : (decodeConditional w).standsIn w := by
  have hlt := (fieldCond w).isLt
  unfold decodeConditional
  split
  all_goals
    rename_i hs
    first
    | simp [Instr.standsIn, ho, eq_ofNat_of_toNat hs]
    | have e : (fieldCond w).toNat = 3 := by simp only [imp_false] at *; omega
      simp [Instr.standsIn, ho, eq_ofNat_of_toNat e]

/-- The decoder's inversion: the fields of a word that decodes to `i` are those of `i`. -/
theorem standsIn_of_decode {w : Word} {i : Instr} (h : decode w = .ok i) : i.standsIn w := by
  have hlt := (fieldOp w).isLt
  rw [decode_eq] at h
  unfold decodeFields at h
  split at h
  all_goals
    rename_i hs
    first
    | exact standsIn_of_decodeUnary (eq_ofNat_of_toNat hs) h
    | exact standsIn_of_decodeJump (eq_ofNat_of_toNat hs) h
    | cases h
  all_goals
    first
    | exact standsIn_decodeConditional (eq_ofNat_of_toNat hs)
    | simp [Instr.standsIn, eq_ofNat_of_toNat hs]
    | have e : (fieldOp w).toNat = 15 := by simp only [imp_false] at *; omega
      simp [Instr.standsIn, eq_ofNat_of_toNat e]

namespace Laws.DecodedFields

/-- Every word that decodes to `i` holds the opcodes and the operands of `i` in the fields of its format. -/
def Statement (i : Instr) : Prop := ∀ w : Word, decode w = .ok i → i.standsIn w

theorem add (rt rs1 rs2 : Reg) : Statement (.add rt rs1 rs2) := fun _ => standsIn_of_decode
theorem sub (rt rs1 rs2 : Reg) : Statement (.sub rt rs1 rs2) := fun _ => standsIn_of_decode
theorem and (rt rs1 rs2 : Reg) : Statement (.and rt rs1 rs2) := fun _ => standsIn_of_decode
theorem or (rt rs1 rs2 : Reg) : Statement (.or rt rs1 rs2) := fun _ => standsIn_of_decode
theorem xor (rt rs1 rs2 : Reg) : Statement (.xor rt rs1 rs2) := fun _ => standsIn_of_decode
theorem addi (rt : Reg) (imm8 : Byte) : Statement (.addi rt imm8) := fun _ => standsIn_of_decode
theorem subi (rt : Reg) (imm8 : Byte) : Statement (.subi rt imm8) := fun _ => standsIn_of_decode
theorem ldl (rt : Reg) (imm8 : Byte) : Statement (.ldl rt imm8) := fun _ => standsIn_of_decode
theorem ldh (rt : Reg) (imm8 : Byte) : Statement (.ldh rt imm8) := fun _ => standsIn_of_decode
theorem ld (rt rs1 rs2 : Reg) : Statement (.ld rt rs1 rs2) := fun _ => standsIn_of_decode
theorem st (rt rs1 rs2 : Reg) : Statement (.st rt rs1 rs2) := fun _ => standsIn_of_decode
theorem sl0 (rt rs1 : Reg) : Statement (.sl0 rt rs1) := fun _ => standsIn_of_decode
theorem sl1 (rt rs1 : Reg) : Statement (.sl1 rt rs1) := fun _ => standsIn_of_decode
theorem sr0 (rt rs1 : Reg) : Statement (.sr0 rt rs1) := fun _ => standsIn_of_decode
theorem sr1 (rt rs1 : Reg) : Statement (.sr1 rt rs1) := fun _ => standsIn_of_decode
theorem not (rt rs1 : Reg) : Statement (.not rt rs1) := fun _ => standsIn_of_decode
theorem nop : Statement .nop := fun _ => standsIn_of_decode
theorem halt : Statement .halt := fun _ => standsIn_of_decode
theorem ldsp (rs1 : Reg) : Statement (.ldsp rs1) := fun _ => standsIn_of_decode
theorem rts : Statement .rts := fun _ => standsIn_of_decode
theorem pop (rt : Reg) : Statement (.pop rt) := fun _ => standsIn_of_decode
theorem push (rt : Reg) : Statement (.push rt) := fun _ => standsIn_of_decode
theorem jmpr (rs1 : Reg) : Statement (.jmpr rs1) := fun _ => standsIn_of_decode
theorem jmpnr (rs1 : Reg) : Statement (.jmpnr rs1) := fun _ => standsIn_of_decode
theorem jmpzr (rs1 : Reg) : Statement (.jmpzr rs1) := fun _ => standsIn_of_decode
theorem jmpcr (rs1 : Reg) : Statement (.jmpcr rs1) := fun _ => standsIn_of_decode
theorem jmpvr (rs1 : Reg) : Statement (.jmpvr rs1) := fun _ => standsIn_of_decode
theorem jmp (rs1 : Reg) : Statement (.jmp rs1) := fun _ => standsIn_of_decode
theorem jmpn (rs1 : Reg) : Statement (.jmpn rs1) := fun _ => standsIn_of_decode
theorem jmpz (rs1 : Reg) : Statement (.jmpz rs1) := fun _ => standsIn_of_decode
theorem jmpc (rs1 : Reg) : Statement (.jmpc rs1) := fun _ => standsIn_of_decode
theorem jmpv (rs1 : Reg) : Statement (.jmpv rs1) := fun _ => standsIn_of_decode
theorem jsrr (rs1 : Reg) : Statement (.jsrr rs1) := fun _ => standsIn_of_decode
theorem jsr (rs1 : Reg) : Statement (.jsr rs1) := fun _ => standsIn_of_decode
theorem jmpd (disp10 : BitVec 10) : Statement (.jmpd disp10) := fun _ => standsIn_of_decode
theorem jmpnd (disp10 : BitVec 10) : Statement (.jmpnd disp10) := fun _ => standsIn_of_decode
theorem jmpzd (disp10 : BitVec 10) : Statement (.jmpzd disp10) := fun _ => standsIn_of_decode
theorem jmpcd (disp10 : BitVec 10) : Statement (.jmpcd disp10) := fun _ => standsIn_of_decode
theorem jmpvd (disp10 : BitVec 10) : Statement (.jmpvd disp10) := fun _ => standsIn_of_decode
theorem jsrd (disp12 : BitVec 12) : Statement (.jsrd disp12) := fun _ => standsIn_of_decode

end Laws.DecodedFields

end Sys2Proof
end

