-- ==== Sys2Proof/Laws/Run.lean ====
section
/-!
SUPPORT. A run, one step at a time.
-/

namespace Sys2Proof.Machine

@[simp] theorem run_zero (s : State) : run 0 s = .next s := rfl

/-- A longer run, by what its first step answers. -/
theorem run_succ_next (k : Nat) {s t : State} (h : step s = .next t) : run (k + 1) s = run k t := by
  have hc : core.step s = .next t := h
  have hr := Host.Core.run.eq_2 core s k
  rw [hc] at hr
  exact hr

theorem run_succ_fault (k : Nat) {s : State} {f : Fault} (h : step s = .fault f) : run (k + 1) s = .fault f := by
  have hc : core.step s = .fault f := h
  have hr := Host.Core.run.eq_2 core s k
  rw [hc] at hr
  exact hr

theorem run_succ_refused (k : Nat) {s : State} {r : Refusal} (h : step s = .refused r) :
    run (k + 1) s = .refused r := by
  have hc : core.step s = .refused r := h
  have hr := Host.Core.run.eq_2 core s k
  rw [hc] at hr
  exact hr

@[simp] theorem execAll_nil (s : State) : execAll [] s = .next s := rfl

theorem execAll_cons_next {i : Instr} (rest : List Instr) {s t : State} (h : exec i s = .next t) :
    execAll (i :: rest) s = execAll rest t := by
  simp [execAll, h]

end Sys2Proof.Machine
end

