-- ==== Sys2Proof/Tests/Slice0.lean ====
section
/-!
SUPPORT. The tests: what `WellFormed` refuses, each constructor's word, single steps on small machines with the results of
spec/95_test_vectors.md section 2, and for each statement with hypotheses a state and operands that meet them.
-/

namespace Sys2Proof.Tests

open Sys2Proof.Machine

/-! ## Well-formed words. -/

/-- Major opcode Bh with minor opcode Bh, Fh; Ch with Ch, Fh (30_encoding.md section 4, R75). -/
theorem test_assignedWord_refuses :
    assignedWord 0xB00B = false ∧ assignedWord 0xBFFF = false ∧ assignedWord 0xC00C = false ∧
      assignedWord 0xCFFF = false := by decide

/-- Junk in the ignored fields of NOP, RTS, LDSP, PUSH, JSR and JMPD (95_test_vectors.md section 2): assigned, not canonical. -/
theorem test_canonicalWord_refuses :
    [(0xB7A5 : Word), 0xBAB8, 0xB5D7, 0xB1FA, 0xC31B, 0xDC50].all (fun w => assignedWord w && !canonicalWord w) = true := by
  decide

/-- No term of `Instr` is ill-formed: the widths of its operands are those of the fields, so a number too large for its
field is another operand. -/
theorem test_operands_fit : (Instr.ldl 1 0x127) = .ldl 1 0x27 ∧ (Instr.ldl 1 0x27).wellFormed = true := by decide

/-- The table has 40 rows and no two of them share a word: they differ under the bits both look at. -/
theorem test_opcodeTable_disjoint :
    opcodeTable.length = 40 ∧
      opcodeTable.Pairwise (fun x y => x.pattern &&& y.mask ≠ y.pattern &&& x.mask) := by decide

/-! ## Decoding, the words written out bit by bit. -/

/-- RRR and RI: op, rt, rs1, rs2 or op, rt, imm8 (30_encoding.md sections 2 and 4). -/
theorem test_decode_arithmetic :
    decode 0b0000_0100_0001_0010 = .ok (.add 4 1 2) ∧ encode (.add 4 1 2) = 0b0000_0100_0001_0010 ∧
    decode 0b0001_0101_0001_0010 = .ok (.sub 5 1 2) ∧ encode (.sub 5 1 2) = 0b0001_0101_0001_0010 ∧
    decode 0b0010_0110_0001_0010 = .ok (.and 6 1 2) ∧ encode (.and 6 1 2) = 0b0010_0110_0001_0010 ∧
    decode 0b0011_0111_0001_0010 = .ok (.or 7 1 2) ∧ encode (.or 7 1 2) = 0b0011_0111_0001_0010 ∧
    decode 0b0100_1000_0001_0010 = .ok (.xor 8 1 2) ∧ encode (.xor 8 1 2) = 0b0100_1000_0001_0010 ∧
    decode 0b0101_0001_1111_1111 = .ok (.addi 1 0xFF) ∧ encode (.addi 1 0xFF) = 0b0101_0001_1111_1111 ∧
    decode 0b0110_0010_0000_0100 = .ok (.subi 2 0x04) ∧ encode (.subi 2 0x04) = 0b0110_0010_0000_0100 := by decide

/-- RI (30_encoding.md sections 2 and 4). -/
theorem test_decode_const_load :
    decode 0b0111_0001_0010_0111 = .ok (.ldl 1 0x27) ∧ encode (.ldl 1 0x27) = 0b0111_0001_0010_0111 ∧
    decode 0b1000_0001_0000_0011 = .ok (.ldh 1 0x03) ∧ encode (.ldh 1 0x03) = 0b1000_0001_0000_0011 := by decide

/-- RRR (30_encoding.md sections 2 and 4). -/
theorem test_decode_load_store :
    decode 0b1001_1111_0001_0000 = .ok (.ld 15 1 0) ∧ encode (.ld 15 1 0) = 0b1001_1111_0001_0000 ∧
    decode 0b1010_1101_0000_0001 = .ok (.st 13 0 1) ∧ encode (.st 13 0 1) = 0b1010_1101_0000_0001 := by decide

/-- RS: op Bh, rt, rs1, sub (30_encoding.md sections 2 and 4). -/
theorem test_decode_shift :
    decode 0b1011_0010_0011_0000 = .ok (.sl0 2 3) ∧ encode (.sl0 2 3) = 0b1011_0010_0011_0000 ∧
    decode 0b1011_0010_0011_0001 = .ok (.sl1 2 3) ∧ encode (.sl1 2 3) = 0b1011_0010_0011_0001 ∧
    decode 0b1011_0100_0010_0010 = .ok (.sr0 4 2) ∧ encode (.sr0 4 2) = 0b1011_0100_0010_0010 ∧
    decode 0b1011_0100_0010_0011 = .ok (.sr1 4 2) ∧ encode (.sr1 4 2) = 0b1011_0100_0010_0011 ∧
    decode 0b1011_0001_0000_0100 = .ok (.not 1 0) ∧ encode (.not 1 0) = 0b1011_0001_0000_0100 := by decide

/-- RS (30_encoding.md sections 2 and 4). -/
theorem test_decode_stack :
    decode 0b1011_0000_1101_0111 = .ok (.ldsp 13) ∧ encode (.ldsp 13) = 0b1011_0000_1101_0111 ∧
    decode 0b1011_0000_0000_1000 = .ok .rts ∧ encode .rts = 0b1011_0000_0000_1000 ∧
    decode 0b1011_0100_0000_1001 = .ok (.pop 4) ∧ encode (.pop 4) = 0b1011_0100_0000_1001 ∧
    decode 0b1011_0100_0000_1010 = .ok (.push 4) ∧ encode (.push 4) = 0b1011_0100_0000_1010 := by decide

/-- RS (30_encoding.md sections 2 and 4). -/
theorem test_decode_control :
    decode 0b1011_0000_0000_0101 = .ok .nop ∧ encode .nop = 0b1011_0000_0000_0101 ∧
    decode 0b1011_0000_0000_0110 = .ok .halt ∧ encode .halt = 0b1011_0000_0000_0110 := by decide

/-- RS: op Ch, rs1, sub (30_encoding.md sections 2 and 4). -/
theorem test_decode_relative_jump :
    decode 0b1100_0000_0111_0000 = .ok (.jmpr 7) ∧ encode (.jmpr 7) = 0b1100_0000_0111_0000 ∧
    decode 0b1100_0000_0111_0001 = .ok (.jmpnr 7) ∧ encode (.jmpnr 7) = 0b1100_0000_0111_0001 ∧
    decode 0b1100_0000_0111_0010 = .ok (.jmpzr 7) ∧ encode (.jmpzr 7) = 0b1100_0000_0111_0010 ∧
    decode 0b1100_0000_0111_0011 = .ok (.jmpcr 7) ∧ encode (.jmpcr 7) = 0b1100_0000_0111_0011 ∧
    decode 0b1100_0000_0111_0100 = .ok (.jmpvr 7) ∧ encode (.jmpvr 7) = 0b1100_0000_0111_0100 := by decide

/-- RS (30_encoding.md sections 2 and 4). -/
theorem test_decode_absolute_jump :
    decode 0b1100_0000_0111_0101 = .ok (.jmp 7) ∧ encode (.jmp 7) = 0b1100_0000_0111_0101 ∧
    decode 0b1100_0000_0111_0110 = .ok (.jmpn 7) ∧ encode (.jmpn 7) = 0b1100_0000_0111_0110 ∧
    decode 0b1100_0000_0111_0111 = .ok (.jmpz 7) ∧ encode (.jmpz 7) = 0b1100_0000_0111_0111 ∧
    decode 0b1100_0000_0111_1000 = .ok (.jmpc 7) ∧ encode (.jmpc 7) = 0b1100_0000_0111_1000 ∧
    decode 0b1100_0000_0111_1001 = .ok (.jmpv 7) ∧ encode (.jmpv 7) = 0b1100_0000_0111_1001 := by decide

/-- D10: op, cond, disp10 (30_encoding.md sections 2 and 4). -/
theorem test_decode_displacement_jump :
    decode 0b1101_00_0001010000 = .ok (.jmpd 0x050) ∧ encode (.jmpd 0x050) = 0b1101_00_0001010000 ∧
    decode 0b1110_00_1000000001 = .ok (.jmpnd 0x201) ∧ encode (.jmpnd 0x201) = 0b1110_00_1000000001 ∧
    decode 0b1110_01_1111111100 = .ok (.jmpzd 0x3FC) ∧ encode (.jmpzd 0x3FC) = 0b1110_01_1111111100 ∧
    decode 0b1110_10_0000010000 = .ok (.jmpcd 0x010) ∧ encode (.jmpcd 0x010) = 0b1110_10_0000010000 ∧
    decode 0b1110_11_0111111111 = .ok (.jmpvd 0x1FF) ∧ encode (.jmpvd 0x1FF) = 0b1110_11_0111111111 := by decide

/-- RS and D12 (30_encoding.md sections 2 and 4). -/
theorem test_decode_call :
    decode 0b1100_0000_0001_1010 = .ok (.jsrr 1) ∧ encode (.jsrr 1) = 0b1100_0000_0001_1010 ∧
    decode 0b1100_0000_0001_1011 = .ok (.jsr 1) ∧ encode (.jsr 1) = 0b1100_0000_0001_1011 ∧
    decode 0b1111_1000_0000_0001 = .ok (.jsrd 0x801) ∧ encode (.jsrd 0x801) = 0b1111_1000_0000_0001 := by decide

/-! ## Single steps. The results are those of 95_test_vectors.md section 2. -/

/-- A running machine with a word at its PC, and the registers and memory words given; all else as at reset. -/
def machine (pc word : Word) (flags : Flags) (sp : Word) (regs : List (Reg × Word)) (cells : List (Word × Word)) : State :=
  let s := loadImage ((pc, word) :: cells) { State.reset with pc := pc, sp := sp, flags := flags }
  regs.foldl (fun s p => s.setReg p.1 p.2) s

/-- The state after one step, if there is one. -/
def nextOf (s : State) : Option State :=
  match step s with
  | .next t => some t
  | _ => none

/-- ADD R3,R1,R2 (section 2.1). -/
theorem test_add_overflow_without_carry :
    (nextOf (machine 0x0040 0x0312 ⟨false, false, false, false⟩ 0 [(1, 0x7FFF), (2, 0x0001)] [])).map
      (fun t => (t.pc, t.reg 3, t.flags)) =
      some (0x0041, 0x8000, ⟨true, false, false, true⟩) := by decide

/-- ADD R3,R1,R2 (section 2.1). -/
theorem test_add_carry_and_overflow :
    (nextOf (machine 0x0040 0x0312 ⟨false, false, false, false⟩ 0 [(1, 0x8000), (2, 0x8000)] [])).map
      (fun t => (t.pc, t.reg 3, t.flags)) =
      some (0x0041, 0x0000, ⟨false, true, true, true⟩) := by decide

/-- SUB R3,R1,R2 (section 2.2). -/
theorem test_sub_operand_order :
    (nextOf (machine 0x0040 0x1312 ⟨false, false, false, false⟩ 0 [(1, 0x0003), (2, 0x0005)] [])).map
      (fun t => (t.pc, t.reg 3, t.flags.n, t.flags.z, t.flags.v)) =
      some (0x0041, 0xFFFE, true, false, false) := by decide

/-- SUB R3,R1,R2 (section 2.2). -/
theorem test_sub_signed_overflow :
    (nextOf (machine 0x0040 0x1312 ⟨false, false, false, false⟩ 0 [(1, 0x8000), (2, 0x0001)] [])).map
      (fun t => (t.pc, t.reg 3, t.flags.n, t.flags.z, t.flags.v)) =
      some (0x0041, 0x7FFF, false, false, true) := by decide

/-- AND R3,R1,R2 (section 2.3). -/
theorem test_and_keeps_c_v :
    (nextOf (machine 0x0040 0x2312 ⟨false, false, true, true⟩ 0 [(1, 0xF0F0), (2, 0x0FF0)] [])).map
      (fun t => (t.pc, t.reg 3, t.flags)) =
      some (0x0041, 0x00F0, ⟨false, false, true, true⟩) := by decide

/-- AND R3,R1,R2 (section 2.3). -/
theorem test_and_negative :
    (nextOf (machine 0x0040 0x2312 ⟨false, false, false, false⟩ 0 [(1, 0x8001), (2, 0x8000)] [])).map
      (fun t => (t.pc, t.reg 3, t.flags)) =
      some (0x0041, 0x8000, ⟨true, false, false, false⟩) := by decide

/-- OR R3,R1,R2 (section 2.3). -/
theorem test_or_keeps_c :
    (nextOf (machine 0x0040 0x3312 ⟨false, true, true, false⟩ 0 [(1, 0xF0F0), (2, 0x0F0F)] [])).map
      (fun t => (t.pc, t.reg 3, t.flags)) =
      some (0x0041, 0xFFFF, ⟨true, false, true, false⟩) := by decide

/-- OR R3,R1,R2 (section 2.3). -/
theorem test_or_zero :
    (nextOf (machine 0x0040 0x3312 ⟨true, false, false, true⟩ 0 [(1, 0x0000), (2, 0x0000)] [])).map
      (fun t => (t.pc, t.reg 3, t.flags)) =
      some (0x0041, 0x0000, ⟨false, true, false, true⟩) := by decide

/-- XOR R3,R1,R2 (section 2.3). -/
theorem test_xor_negative :
    (nextOf (machine 0x0040 0x4312 ⟨false, false, false, false⟩ 0 [(1, 0xFFFF), (2, 0x00FF)] [])).map
      (fun t => (t.pc, t.reg 3, t.flags)) =
      some (0x0041, 0xFF00, ⟨true, false, false, false⟩) := by decide

/-- XOR R1,R1,R1 (section 2.3). -/
theorem test_xor_same_register :
    (nextOf (machine 0x0040 0x4111 ⟨true, false, true, true⟩ 0 [(1, 0xBEEF)] [])).map
      (fun t => (t.pc, t.reg 1, t.flags)) =
      some (0x0041, 0x0000, ⟨false, true, true, true⟩) := by decide

/-- ADDI R1,#FFH (section 2.4). -/
theorem test_addi_zero_extends :
    (nextOf (machine 0x0040 0x51FF ⟨false, false, false, false⟩ 0 [(1, 0x1018)] [])).map
      (fun t => (t.pc, t.reg 1, t.flags)) =
      some (0x0041, 0x1117, ⟨false, false, false, false⟩) := by decide

/-- ADDI R1,#80H (section 2.4). -/
theorem test_addi_carry :
    (nextOf (machine 0x0040 0x5180 ⟨false, false, false, false⟩ 0 [(1, 0xFF80)] [])).map
      (fun t => (t.pc, t.reg 1, t.flags)) =
      some (0x0041, 0x0000, ⟨false, true, true, false⟩) := by decide

/-- SUBI R2,#FFH (section 2.4). -/
theorem test_subi_zero_extends :
    (nextOf (machine 0x0040 0x62FF ⟨false, false, false, false⟩ 0 [(2, 0x122F)] [])).map
      (fun t => (t.pc, t.reg 2, t.flags.n, t.flags.z, t.flags.v)) =
      some (0x0041, 0x1130, false, false, false) := by decide

/-- SUBI R1,#01H (section 2.4). -/
theorem test_subi_signed_overflow :
    (nextOf (machine 0x0040 0x6101 ⟨false, false, false, false⟩ 0 [(1, 0x8000)] [])).map
      (fun t => (t.pc, t.reg 1, t.flags.n, t.flags.z, t.flags.v)) =
      some (0x0041, 0x7FFF, false, false, true) := by decide

/-- LDL R1,#08H (section 2.6). -/
theorem test_ldl_keeps_high :
    (nextOf (machine 0x0040 0x7108 ⟨true, true, true, true⟩ 0 [(1, 0xABCD)] [])).map
      (fun t => (t.pc, t.reg 1, t.flags)) =
      some (0x0041, 0xAB08, ⟨true, true, true, true⟩) := by decide

/-- LDH R0,#FFH (section 2.6). -/
theorem test_ldh_writes_no_flag :
    (nextOf (machine 0x0040 0x80FF ⟨false, true, false, false⟩ 0 [(0, 0x00FF)] [])).map
      (fun t => (t.pc, t.reg 0, t.flags)) =
      some (0x0041, 0xFFFF, ⟨false, true, false, false⟩) := by decide

/-- LD R3,R1,R2 (section 2.7). -/
theorem test_ld_address_wraps :
    (nextOf (machine 0x0040 0x9312 ⟨false, false, false, false⟩ 0 [(1, 0xFFFF), (2, 0x0002)] [(0x0001, 0x8000)])).map
      (fun t => (t.pc, t.reg 3, t.flags)) =
      some (0x0041, 0x8000, ⟨false, false, false, false⟩) := by decide

/-- LD R0,R1,R2 (section 2.7). -/
theorem test_ld_own_word :
    (nextOf (machine 0x0040 0x9012 ⟨false, false, false, false⟩ 0 [(1, 0x0040), (2, 0x0000)] [])).map
      (fun t => (t.pc, t.reg 0, t.flags)) =
      some (0x0041, 0x9012, ⟨false, false, false, false⟩) := by decide

/-- ST R3,R1,R2 (section 2.7). -/
theorem test_st_address_wraps :
    (nextOf (machine 0x0040 0xA312 ⟨false, false, false, false⟩ 0 [(1, 0x8000), (2, 0x8000), (3, 0xBEEF)] [(0x0000, 0x1111)])).map
      (fun t => (t.pc, t.mem.readWord 0x0000, t.flags)) =
      some (0x0041, 0xBEEF, ⟨false, false, false, false⟩) := by decide

/-- ST R1,R1,R2 (section 2.7). -/
theorem test_st_own_address_register :
    (nextOf (machine 0x0040 0xA112 ⟨false, false, false, false⟩ 0 [(1, 0x0300), (2, 0x0005)] [])).map
      (fun t => (t.pc, t.mem.readWord 0x0305, t.flags)) =
      some (0x0041, 0x0300, ⟨false, false, false, false⟩) := by decide

/-- SL0 R1,R2 (section 2.5). -/
theorem test_sl0_loses_bit_15 :
    (nextOf (machine 0x0040 0xB120 ⟨true, false, true, true⟩ 0 [(2, 0x8000)] [])).map
      (fun t => (t.pc, t.reg 1, t.flags)) =
      some (0x0041, 0x0000, ⟨false, true, true, true⟩) := by decide

/-- SL1 R1,R2 (section 2.5). -/
theorem test_sl1_same_register :
    (nextOf (machine 0x0040 0xB121 ⟨false, false, false, false⟩ 0 [(2, 0x8000)] [])).map
      (fun t => (t.pc, t.reg 1, t.flags)) =
      some (0x0041, 0x0001, ⟨false, false, false, false⟩) := by decide

/-- SR0 R1,R2 (section 2.5). -/
theorem test_sr0_loses_bit_0 :
    (nextOf (machine 0x0040 0xB122 ⟨true, false, true, true⟩ 0 [(2, 0x0001)] [])).map
      (fun t => (t.pc, t.reg 1, t.flags)) =
      some (0x0041, 0x0000, ⟨false, true, true, true⟩) := by decide

/-- SR0 R1,R2 (section 2.5). -/
theorem test_sr0_logical :
    (nextOf (machine 0x0040 0xB122 ⟨false, false, false, false⟩ 0 [(2, 0x8000)] [])).map
      (fun t => (t.pc, t.reg 1, t.flags)) =
      some (0x0041, 0x4000, ⟨false, false, false, false⟩) := by decide

/-- SR1 R1,R2 (section 2.5). -/
theorem test_sr1_zero :
    (nextOf (machine 0x0040 0xB123 ⟨false, false, false, false⟩ 0 [(2, 0x0000)] [])).map
      (fun t => (t.pc, t.reg 1, t.flags)) =
      some (0x0041, 0x8000, ⟨true, false, false, false⟩) := by decide

/-- NOT R1,R2 (section 2.5). -/
theorem test_not_zero :
    (nextOf (machine 0x0040 0xB124 ⟨true, false, true, false⟩ 0 [(2, 0xFFFF)] [])).map
      (fun t => (t.pc, t.reg 1, t.flags)) =
      some (0x0041, 0x0000, ⟨false, true, true, false⟩) := by decide

/-- NOT R1,R0 (section 2.5). -/
theorem test_not_ones :
    (nextOf (machine 0x0040 0xB104 ⟨false, false, false, false⟩ 0 [(0, 0x0000)] [])).map
      (fun t => (t.pc, t.reg 1, t.flags)) =
      some (0x0041, 0xFFFF, ⟨true, false, false, false⟩) := by decide

/-- LDSP R13 (section 2.8). -/
theorem test_ldsp_loads :
    (nextOf (machine 0x0040 0xB0D7 ⟨true, true, true, true⟩ 0x1234 [(13, 0x01FF)] [])).map
      (fun t => (t.pc, t.sp, t.flags)) =
      some (0x0041, 0x01FF, ⟨true, true, true, true⟩) := by decide

/-- LDSP R13 (section 2.8). -/
theorem test_ldsp_ignored_field :
    (nextOf (machine 0x0040 0xB5D7 ⟨false, false, false, false⟩ 0x1234 [(13, 0x0000)] [])).map
      (fun t => (t.pc, t.sp, t.flags)) =
      some (0x0041, 0x0000, ⟨false, false, false, false⟩) := by decide

/-- PUSH R1 (section 2.8). -/
theorem test_push_wraps :
    (nextOf (machine 0x0040 0xB10A ⟨false, false, false, false⟩ 0x0000 [(1, 0xAAAA)] [])).map
      (fun t => (t.pc, t.sp, t.mem.readWord 0x0000, t.flags)) =
      some (0x0041, 0xFFFF, 0xAAAA, ⟨false, false, false, false⟩) := by decide

/-- PUSH R1 (section 2.8). -/
theorem test_push_ignored_field :
    (nextOf (machine 0x0040 0xB1FA ⟨false, false, false, false⟩ 0x0300 [(1, 0x5555), (15, 0x9999)] [])).map
      (fun t => (t.pc, t.sp, t.mem.readWord 0x0300, t.flags)) =
      some (0x0041, 0x02FF, 0x5555, ⟨false, false, false, false⟩) := by decide

/-- POP R4 (section 2.8). -/
theorem test_pop_loads :
    (nextOf (machine 0x0040 0xB409 ⟨true, false, false, false⟩ 0x01FA [] [(0x01FB, 0x223C)])).map
      (fun t => (t.pc, t.reg 4, t.sp, t.flags)) =
      some (0x0041, 0x223C, 0x01FB, ⟨true, false, false, false⟩) := by decide

/-- POP R1 (section 2.8). -/
theorem test_pop_wraps :
    (nextOf (machine 0x0040 0xB109 ⟨true, false, true, true⟩ 0xFFFF [(1, 0x7777)] [(0x0000, 0x0000)])).map
      (fun t => (t.pc, t.reg 1, t.sp, t.flags)) =
      some (0x0041, 0x0000, 0x0000, ⟨true, false, true, true⟩) := by decide

/-- JMPR R1 (section 2.9). -/
theorem test_jmpr_to_itself :
    (nextOf (machine 0x0040 0xC010 ⟨false, false, false, false⟩ 0 [(1, 0xFFFF)] [])).map
      (fun t => (t.pc)) =
      some (0x0040) := by decide

/-- JMPR R1 (section 2.9). -/
theorem test_jmpr_wraps :
    (nextOf (machine 0xFFFF 0xC010 ⟨false, false, false, false⟩ 0 [(1, 0x0002)] [])).map
      (fun t => (t.pc)) =
      some (0x0002) := by decide

/-- JMPNR R1 (section 2.9). -/
theorem test_jmpnr_taken :
    (nextOf (machine 0x0040 0xC011 ⟨true, false, false, false⟩ 0 [(1, 0x0010)] [])).map
      (fun t => (t.pc)) =
      some (0x0051) := by decide

/-- JMPNR R1 (section 2.9). -/
theorem test_jmpnr_not_taken :
    (nextOf (machine 0x0040 0xC011 ⟨false, true, true, true⟩ 0 [(1, 0x0010)] [])).map
      (fun t => (t.pc)) =
      some (0x0041) := by decide

/-- JMPZR R1 (section 2.9). -/
theorem test_jmpzr_taken :
    (nextOf (machine 0x0040 0xC012 ⟨false, true, false, false⟩ 0 [(1, 0x0010)] [])).map
      (fun t => (t.pc)) =
      some (0x0051) := by decide

/-- JMPZR R1 (section 2.9). -/
theorem test_jmpzr_not_taken :
    (nextOf (machine 0x0040 0xC012 ⟨true, false, true, true⟩ 0 [(1, 0x0010)] [])).map
      (fun t => (t.pc)) =
      some (0x0041) := by decide

/-- JMPCR R1 (section 2.9). -/
theorem test_jmpcr_taken :
    (nextOf (machine 0x0040 0xC013 ⟨false, false, true, false⟩ 0 [(1, 0x0010)] [])).map
      (fun t => (t.pc)) =
      some (0x0051) := by decide

/-- JMPCR R1 (section 2.9). -/
theorem test_jmpcr_not_taken :
    (nextOf (machine 0x0040 0xC013 ⟨true, true, false, true⟩ 0 [(1, 0x0010)] [])).map
      (fun t => (t.pc)) =
      some (0x0041) := by decide

/-- JMPVR R1 (section 2.9). -/
theorem test_jmpvr_taken :
    (nextOf (machine 0x0040 0xC014 ⟨false, false, false, true⟩ 0 [(1, 0x0010)] [])).map
      (fun t => (t.pc)) =
      some (0x0051) := by decide

/-- JMPVR R1 (section 2.9). -/
theorem test_jmpvr_not_taken :
    (nextOf (machine 0x0040 0xC014 ⟨true, true, true, false⟩ 0 [(1, 0x0010)] [])).map
      (fun t => (t.pc)) =
      some (0x0041) := by decide

/-- JMPN R1 (section 2.9). -/
theorem test_jmpn_taken :
    (nextOf (machine 0x0040 0xC016 ⟨true, false, false, false⟩ 0 [(1, 0x1234)] [])).map
      (fun t => (t.pc)) =
      some (0x1234) := by decide

/-- JMPN R1 (section 2.9). -/
theorem test_jmpn_not_taken :
    (nextOf (machine 0x0040 0xC016 ⟨false, true, true, true⟩ 0 [(1, 0x1234)] [])).map
      (fun t => (t.pc)) =
      some (0x0041) := by decide

/-- JMPZ R7 (section 2.9). -/
theorem test_jmpz_taken :
    (nextOf (machine 0x001E 0xC077 ⟨false, true, true, false⟩ 0 [(7, 0x0030)] [])).map
      (fun t => (t.pc)) =
      some (0x0030) := by decide

/-- JMPZ R1 (section 2.9). -/
theorem test_jmpz_not_taken :
    (nextOf (machine 0x0040 0xC017 ⟨true, false, true, true⟩ 0 [(1, 0x1234)] [])).map
      (fun t => (t.pc)) =
      some (0x0041) := by decide

/-- JMPC R1 (section 2.9). -/
theorem test_jmpc_taken :
    (nextOf (machine 0x0040 0xC018 ⟨false, false, true, false⟩ 0 [(1, 0x1234)] [])).map
      (fun t => (t.pc)) =
      some (0x1234) := by decide

/-- JMPC R1 (section 2.9). -/
theorem test_jmpc_not_taken :
    (nextOf (machine 0x0040 0xC018 ⟨true, true, false, true⟩ 0 [(1, 0x1234)] [])).map
      (fun t => (t.pc)) =
      some (0x0041) := by decide

/-- JMPV R1 (section 2.9). -/
theorem test_jmpv_taken :
    (nextOf (machine 0x0040 0xC019 ⟨false, false, false, true⟩ 0 [(1, 0x1234)] [])).map
      (fun t => (t.pc)) =
      some (0x1234) := by decide

/-- JMPV R1 (section 2.9). -/
theorem test_jmpv_not_taken :
    (nextOf (machine 0x0040 0xC019 ⟨true, true, true, false⟩ 0 [(1, 0x1234)] [])).map
      (fun t => (t.pc)) =
      some (0x0041) := by decide

/-- JMPND +16 (section 2.10). -/
theorem test_jmpnd_taken :
    (nextOf (machine 0x0040 0xE010 ⟨true, false, false, false⟩ 0 [] [])).map
      (fun t => (t.pc)) =
      some (0x0051) := by decide

/-- JMPND +16 (section 2.10). -/
theorem test_jmpnd_not_taken :
    (nextOf (machine 0x0040 0xE010 ⟨false, true, true, true⟩ 0 [] [])).map
      (fun t => (t.pc)) =
      some (0x0041) := by decide

/-- JMPZD -4 (section 2.10). -/
theorem test_jmpzd_back :
    (nextOf (machine 0x0040 0xE7FC ⟨false, true, false, false⟩ 0 [] [])).map
      (fun t => (t.pc)) =
      some (0x003D) := by decide

/-- JMPZD +16 (section 2.10). -/
theorem test_jmpzd_not_taken :
    (nextOf (machine 0x0040 0xE410 ⟨true, false, true, true⟩ 0 [] [])).map
      (fun t => (t.pc)) =
      some (0x0041) := by decide

/-- JMPCD +16 (section 2.10). -/
theorem test_jmpcd_taken :
    (nextOf (machine 0x0040 0xE810 ⟨false, false, true, false⟩ 0 [] [])).map
      (fun t => (t.pc)) =
      some (0x0051) := by decide

/-- JMPCD +16 (section 2.10). -/
theorem test_jmpcd_not_taken :
    (nextOf (machine 0x0040 0xE810 ⟨true, true, false, true⟩ 0 [] [])).map
      (fun t => (t.pc)) =
      some (0x0041) := by decide

/-- JMPVD -1 (section 2.10). -/
theorem test_jmpvd_to_itself :
    (nextOf (machine 0x0040 0xEFFF ⟨false, false, false, true⟩ 0 [] [])).map
      (fun t => (t.pc)) =
      some (0x0040) := by decide

/-- JMPVD +16 (section 2.10). -/
theorem test_jmpvd_not_taken :
    (nextOf (machine 0x0040 0xEC10 ⟨true, true, true, false⟩ 0 [] [])).map
      (fun t => (t.pc)) =
      some (0x0041) := by decide

/-- JMP R1 (section 2.9). -/
theorem test_jmp_goes :
    (nextOf (machine 0x0040 0xC015 ⟨false, false, false, false⟩ 0 [(1, 0x1234)] [])).map
      (fun t => (t.pc)) =
      some (0x1234) := by decide

/-- JMPD -512 (section 2.10). -/
theorem test_jmpd_lowest :
    (nextOf (machine 0x0040 0xD200 ⟨false, false, false, false⟩ 0 [] [])).map
      (fun t => (t.pc)) =
      some (0xFE41) := by decide

/-- JMPD +80 (section 2.10). -/
theorem test_jmpd_ignored_bits :
    (nextOf (machine 0x0043 0xDC50 ⟨false, false, false, false⟩ 0 [] [])).map
      (fun t => (t.pc)) =
      some (0x0094) := by decide

/-- JSRR R1 (section 2.11). -/
theorem test_jsrr_back :
    (nextOf (machine 0x0040 0xC01A ⟨false, false, false, false⟩ 0x0300 [(1, 0xFFF0)] [])).map
      (fun t => (t.pc, t.sp, t.mem.readWord 0x0300)) =
      some (0x0031, 0x02FF, 0x0041) := by decide

/-- JSRR R1 (section 2.11). -/
theorem test_jsrr_source_example :
    (nextOf (machine 0x0106 0xC01A ⟨false, false, false, false⟩ 0x01FA [(1, 0x0009)] [])).map
      (fun t => (t.pc, t.sp, t.mem.readWord 0x01FA)) =
      some (0x0110, 0x01F9, 0x0107) := by decide

/-- JSR R1 (section 2.11). -/
theorem test_jsr_ignored_field :
    (nextOf (machine 0x0040 0xC31B ⟨true, true, true, true⟩ 0x0300 [(1, 0x2000)] [])).map
      (fun t => (t.pc, t.sp, t.mem.readWord 0x0300)) =
      some (0x2000, 0x02FF, 0x0041) := by decide

/-- JSR R1 (section 2.11). -/
theorem test_jsr_stack_wraps :
    (nextOf (machine 0x0040 0xC01B ⟨false, false, false, false⟩ 0x0000 [(1, 0x0500)] [])).map
      (fun t => (t.pc, t.sp, t.mem.readWord 0x0000)) =
      some (0x0500, 0xFFFF, 0x0041) := by decide

/-- JSRD +16 (section 2.11). -/
theorem test_jsrd_over_its_return_word :
    (nextOf (machine 0x0040 0xF010 ⟨false, false, false, false⟩ 0x0041 [] [])).map
      (fun t => (t.pc, t.sp, t.mem.readWord 0x0041)) =
      some (0x0051, 0x0040, 0x0041) := by decide

/-- JSRD -2048 (section 2.11). -/
theorem test_jsrd_lowest :
    (nextOf (machine 0x0900 0xF800 ⟨false, false, false, false⟩ 0x0300 [] [])).map
      (fun t => (t.pc, t.sp, t.mem.readWord 0x0300)) =
      some (0x0101, 0x02FF, 0x0901) := by decide

/-- RTS (section 2.11). -/
theorem test_rts_source_example :
    (nextOf (machine 0x0137 0xB008 ⟨false, false, false, false⟩ 0x01F8 [] [(0x01F9, 0x0115)])).map
      (fun t => (t.pc, t.sp)) =
      some (0x0115, 0x01F9) := by decide

/-- RTS (section 2.11). -/
theorem test_rts_wraps :
    (nextOf (machine 0x0040 0xB008 ⟨false, false, false, false⟩ 0xFFFF [] [(0x0000, 0x7108)])).map
      (fun t => (t.pc, t.sp)) =
      some (0x7108, 0x0000) := by decide

/-- NOP (section 2.12). -/
theorem test_nop_ignored_fields :
    (nextOf (machine 0x0040 0xB7A5 ⟨false, true, false, true⟩ 0x0200 [(10, 0x1234)] [])).map
      (fun t => (t.pc, t.flags)) =
      some (0x0041, ⟨false, true, false, true⟩) := by decide

/-- HALT (section 2.12). -/
theorem test_halt_halts :
    (nextOf (machine 0x0040 0xB006 ⟨true, false, true, false⟩ 0x0200 [] [])).map
      (fun t => (t.pc, t.flags, t.halted)) =
      some (0x0041, ⟨true, false, true, false⟩, true) := by decide

/-! ## C after a subtraction, under both readings (95_test_vectors.md section 2.2). -/

theorem test_subCarry_notBorrow :
    subCarryUnder .notBorrow 0x0005 0x0003 = true ∧ subCarryUnder .notBorrow 0x0003 0x0005 = false ∧
      subCarryUnder .notBorrow 0x1234 0x1234 = true := by decide

theorem test_subCarry_borrow :
    subCarryUnder .borrow 0x0005 0x0003 = false ∧ subCarryUnder .borrow 0x0003 0x0005 = true ∧
      subCarryUnder .borrow 0x1234 0x1234 = false := by decide

/-! ## Steps that stop, halted machines, object lines, the organisation. -/

/-- The 2304 unassigned words fault (60_exceptions.md section 1). -/
theorem test_unassigned_faults :
    step (machine 0x0040 0xB00B ⟨false, false, false, false⟩ 0 [] []) = .fault (.illegalInstruction 0xB00B) := rfl

/-- The line of 70_reset_and_hazards.md section 2's form for the first word of the source's program. -/
theorem test_object_line :
    parseObjectLine "0001 8110 ; LOAD R1, #1008".toList = some (0x0001, 0x8110) ∧
      parseObjectLine "0001 811".toList = none ∧ parseObjectLine "0001 811G".toList = none := by decide

/-- PUSH takes four cycles: the fetch, two cycles without a transfer, and the write (70_reset_and_hazards.md section 5). -/
theorem test_push_bus :
    busTrace 4 (atFetch (machine 0x0040 0xB10A ⟨false, false, false, false⟩ 0x0000 [(1, 0xAAAA)] []) 0 0 0) =
      [.read 0x0040, .idle, .idle, .write 0x0000 0xAAAA] := by decide

/-- JMPZR not taken leaves its destination in RALU after three cycles (44_jumps.md section 1). -/
theorem test_jump_not_taken_ralu :
    (match clocks 3 (atFetch (machine 0x0040 0xC012 ⟨false, false, false, false⟩ 0 [(1, 0x0010)] []) 0 0 0) with
      | .next o => some (o.ralu, o.arch.pc, o.fsm)
      | _ => none) = some (0x0051, 0x0041, .sfetch) := by decide

/-- Reset leaves Shalt (70_reset_and_hazards.md sections 1 and 5). -/
theorem test_organisation_reset :
    let draw : OrganisationDraw := ⟨⟨0x1234, 0x5678, ⟨true, true, true, true⟩⟩, 1, 2, 3⟩
    let o := organisationReset draw ⟨{ State.reset with pc := 0x0095, halted := true }, 0, 0, 0, .shalt⟩
    (o.fsm, o.arch.pc, o.arch.halted, busNow o) = (.sfetch, 0x0000, false, .read 0x0000) := by decide

/-! ## Witnesses.

A witness for the hypotheses of each statement that has some: a state and operands that meet them together, and one for
each clause, at a boundary value where the clause has a range. -/

/-- NOP at 0040, flags N and C set. -/
def nopState : State := machine 0x0040 0xB005 ⟨true, false, true, false⟩ 0x0200 [] []

/-- A halted machine with HALT in IR. -/
def haltedState : State := { machine 0x0095 0x0000 ⟨false, true, true, false⟩ 0x01FF [] [] with ir := 0xB006, halted := true }

/-- One word at the last address, both bytes listed. -/
def lastWord : Memory := Memory.writeWord [] 0xFFFF 0x1234

theorem witness_CanonicalWordsEncodeBack : decode 0x0412 = .ok (.add 4 1 2) ∧ canonicalWord 0x0412 = true := by decide

theorem witness_DecodesExactlyTheAssignedWords :
    (⟨"NOP", 0xF00F#16, 0xFFFF#16, 0xB005#16⟩ ∈ opcodeTable ∧
      OpcodeRow.covers ⟨"NOP", 0xF00F#16, 0xFFFF#16, 0xB005#16⟩ 0xB7A5 = true) ∧
    assignedWord 0xB00B = false ∧ assignedWord 0xCFFF = false := by decide

theorem witness_IgnoredFieldsDoNotMatter :
    let row : OpcodeRow := ⟨"JMPD", 0xF000#16, 0xFC00#16, 0xD000#16⟩
    row ∈ opcodeTable ∧ row.covers 0xD050 = true ∧ row.covers 0xDC50 = true ∧ 0xD050 ≠ 0xDC50 ∧
      (0xD050 : Word) &&& usedBits row = 0xDC50 &&& usedBits row := by decide

theorem witness_WordReadAfterWrite :
    (0x0000 : Word) ≠ 0xFFFF ∧ 0 ≠ lowCell 0xFFFF ∧ 0 ≠ highCell 0xFFFF := by decide

theorem witness_EqualMemoriesAreEqualData :
    lastWord.wf ∧ lastWord ≠ [] ∧ ∀ a : Word, lastWord.readWord a = lastWord.readWord a :=
  ⟨by decide, by decide, fun _ => rfl⟩

theorem witness_ImageLoadSetsListedWords :
    let image : List (Word × Word) := [(0xFFFF, 0xB006), (0x0000, 0x7108)]
    (image.map Prod.fst).Nodup ∧ (0x0000, 0x7108) ∈ image ∧ 0x0001 ∉ image.map Prod.fst := by decide

theorem witness_StepRunsTheDecodedInstruction :
    nopState.halted = false ∧ decode (nopState.mem.readWord nopState.pc) = .ok .nop ∧ haltedState.halted = true := by decide

theorem witness_StepKeepsInvariant :
    (nopState.Inv ∧ ∃ t, step nopState = .next t) ∧ haltedState.Inv ∧ step haltedState = .next haltedState :=
  ⟨⟨⟨by decide, by decide⟩, _, rfl⟩, ⟨by decide, by decide⟩, rfl⟩

theorem witness_UnassignedWordFaults :
    let s := machine 0x0040 0xB00B ⟨false, false, false, false⟩ 0 [] []
    s.halted = false ∧ assignedWord (s.mem.readWord s.pc) = false := by decide

theorem witness_HaltedMachineRunsWithoutFault : haltedState.halted = true := by decide

theorem witness_NextFetchSeesTheStore :
    let s := machine 0x0041 0x0000 ⟨false, false, false, false⟩ 0 [(1, 0x0041), (3, 0xB006)] []
    s.halted = false ∧ effectiveAddress s 0 1 = s.pc ∧ decode (s.reg 3) = .ok .halt := by decide

theorem witness_BitwiseLogicWritesEachBit : 0 < 16 ∧ 15 < 16 := by decide

theorem witness_LdlReplacesTheLowByte : fieldOp 0x7FFF = 7 := by decide

theorem witness_LdhReplacesTheHighByte : fieldOp 0x8FFF = 8 := by decide

theorem witness_LdReadsTheAddressedWord :
    let s := machine 0x0040 0x0000 ⟨false, false, false, false⟩ 0 [(1, 0xFFFF), (2, 0x0002)] []
    (0x0001 : Word).toNat = ((s.reg 1).toNat + (s.reg 2).toNat) % 65536 := by decide

theorem witness_LoadAfterStoreReturnsTheWord :
    let s := machine 0x0040 0x0000 ⟨false, false, false, false⟩ 0 [(1, 0xFFFF), (2, 0x0002), (3, 0x0001)] []
    effectiveAddress s 0 3 = effectiveAddress s 1 2 := by decide

theorem witness_LdspLoadsTheStackPointer : fieldOp 0xB5D7 = 0xB ∧ fieldSub 0xB5D7 = 7 := by decide

/-- The stack pointer wraps, a register is pushed twice, and another word was written in between. -/
theorem witness_MirroredPopsRestorePushes :
    let rs : List Reg := [1, 2, 1]
    let s := machine 0x0040 0x0000 ⟨false, false, false, false⟩ 0x0000 [(1, 0xAAAA), (2, 0x5555)] []
    rs.length ≤ 65536 ∧ ∃ t, execAll (rs.map Instr.push) s = .next t ∧
      ∃ u : State, u.sp = t.sp ∧ u.mem ≠ t.mem ∧
        (∀ j < rs.length, u.mem.readWord (s.sp - BitVec.ofNat 16 j) = t.mem.readWord (s.sp - BitVec.ofNat 16 j)) ∧
        (1 : Reg) ∈ rs ∧ (3 : Reg) ∉ rs := by
  refine ⟨by decide, _, rfl, ?_⟩
  refine ⟨{ State.reset with sp := 0xFFFD, mem := Memory.writeWord (Memory.writeWord (Memory.writeWord (Memory.writeWord
    [] 0x0190 0x01FF) 0x0000 0xAAAA) 0xFFFF 0x5555) 0xFFFE 0xAAAA }, ?_⟩
  decide

theorem witness_MirroredPopsRestorePushes_longest :
    (List.replicate 65536 (1 : Reg)).length ≤ 65536 :=
  le_of_eq List.length_replicate

theorem witness_PushedWordsLieBelowTheTop :
    let rs : List Reg := [1, 2]
    rs.length ≤ 65536 ∧ rs[0]? = some 1 ∧ rs[1]? = some 2 ∧
      ∀ j < rs.length, (0x0001 : Word) ≠ (0x0000 : Word) - BitVec.ofNat 16 j := by decide

theorem witness_AbsoluteJumpsGoToTheRegister :
    (fieldOp 0xCF15 = 0xC ∧ fieldSub 0xCF15 = 5) ∧ (fieldOp 0xC016 = 0xC ∧ fieldSub 0xC016 = 6) ∧
    (fieldOp 0xC077 = 0xC ∧ fieldSub 0xC077 = 7) ∧ (fieldOp 0xC018 = 0xC ∧ fieldSub 0xC018 = 8) ∧
    (fieldOp 0xC019 = 0xC ∧ fieldSub 0xC019 = 9) ∧ nopState.flags.n = true ∧ nopState.flags.z = false ∧
    nopState.flags.c = true ∧ nopState.flags.v = false := by decide

/-- In `nopState` N and C are set, Z and V clear; in `haltedState` Z and C are set, N and V clear. -/
theorem witness_RegisterRelativeJumpsAddTheRegister :
    (Instr.jmpnr 1, true) ∈ [(Instr.jmpr 1, true), (.jmpnr 1, nopState.flags.n), (.jmpzr 1, nopState.flags.z)] ∧
    (Instr.jmpzr 1, false) ∈ [(Instr.jmpr 1, true), (.jmpnr 1, nopState.flags.n), (.jmpzr 1, nopState.flags.z)] := by
  decide

theorem witness_DisplacementJumpsAddTheSignedField :
    (Instr.jmpnd 0x200, true) ∈ [(Instr.jmpd 0x200, true), (.jmpnd 0x200, nopState.flags.n)] ∧
    (Instr.jmpzd 0x1FF, false) ∈ [(Instr.jmpd 0x1FF, true), (.jmpzd 0x1FF, nopState.flags.z)] := by decide

theorem witness_BranchToSelfNeverEnds :
    let s := machine 0xFFFF 0xD3FF ⟨false, false, false, false⟩ 0 [] []
    s.halted = false ∧ s.mem.readWord s.pc = 0xD3FF := by decide

theorem witness_ReturnUndoesACall :
    Instr.jsr 1 ∈ [Instr.jsrr 1, .jsr 1, .jsrd 0x800] ∧ ∃ t, exec (.jsr 1) nopState = .next t ∧
      ∃ u : State, u.sp = t.sp ∧ u.mem.readWord (t.sp + 1) = t.mem.readWord (t.sp + 1) :=
  ⟨by decide, _, rfl, _, rfl, rfl⟩

theorem witness_NopChangesNothing :
    fieldOp 0xB7A5 = 0xB ∧ fieldSub 0xB7A5 = 5 ∧ nopState.halted = false ∧
      decode (nopState.mem.readWord nopState.pc) = .ok .nop := by decide

theorem witness_HaltSetsTheRunState : fieldOp 0xBFF6 = 0xB ∧ fieldSub 0xBFF6 = 6 := by decide

/-- XOR R4,R1,R2 reads R1 and R2 and writes R4: two states that differ in R3 and in R4. -/
theorem witness_BankIsReadAndWrittenAsListed :
    let s' := (nopState.setReg 3 0x00FF).setReg 4 0x1111
    s' = { nopState with regs := s'.regs } ∧ (∀ r ∈ regsRead (.xor 4 1 2), s'.reg r = nopState.reg r) ∧
      s' ≠ nopState ∧ regWritten (.xor 4 1 2) = some 4 ∧ regWritten (.xor 4 1 2) ≠ some 3 :=
  ⟨rfl, by decide, by decide, rfl, by decide⟩

theorem witness_FlagsAreWrittenAsMarked :
    writesNZFlags (.pop 1) = false ∧ writesCVFlags (.and 1 1 1) = false ∧
      writesNZFlags (.and 1 1 1) = true ∧ regWritten (.and 1 1 1) = some 1 := by decide

theorem witness_MemoryIsWrittenAsListed :
    dataWriteAddress (.push 1) haltedState = some 0x01FF ∧ 0 ≠ lowCell 0x01FF ∧ 0 ≠ highCell 0x01FF ∧
      dataWriteAddress (.pop 1) haltedState = none := by decide

/-- RTS reads the word above SP = 01FF, and the two states differ at another address. -/
theorem witness_MemoryIsReadAsListed :
    let s' := { haltedState with mem := haltedState.mem.writeWord 0xFFFF 0x1234 }
    s' = { haltedState with mem := s'.mem } ∧ dataReadAddress .rts haltedState = some 0x0200 ∧
      s'.mem.readWord 0x0200 = haltedState.mem.readWord 0x0200 ∧ s' ≠ haltedState :=
  ⟨rfl, by decide, by decide, by decide⟩

theorem witness_ProgramCounterChangesAsListed :
    let s := machine 0xFFFF 0xB006 ⟨false, false, false, false⟩ 0 [] []
    s.halted = false ∧ decode (s.mem.readWord s.pc) = .ok .halt ∧ transfersControl .halt = false := by decide

theorem witness_StackPointerChangesAsListed :
    Instr.ldsp 13 = .ldsp 13 ∧ (∃ r d, Instr.jsrd 0xFFF ∈ [Instr.push r, .jsrr r, .jsr r, .jsrd d]) ∧
    (∃ r, Instr.rts ∈ [Instr.pop r, .rts]) ∧
    ∀ r d, Instr.nop ∉ [Instr.ldsp r, .push r, .pop r, .rts, .jsrr r, .jsr r, .jsrd d] :=
  ⟨rfl, ⟨0, 0xFFF, by decide⟩, ⟨0, by decide⟩, fun _ _ => by simp⟩

theorem witness_InstructionRegisterIsWrittenByFetchOnly :
    (nopState.halted = false ∧ ∃ t, step nopState = .next t) ∧
      haltedState.halted = true ∧ step haltedState = .next haltedState :=
  ⟨⟨rfl, _, rfl⟩, rfl, rfl⟩

theorem witness_RunStateIsHaltAndResetOnly :
    Instr.nop ≠ .halt ∧ haltedState.halted = true ∧
      let o : Organisation := ⟨haltedState, 0, 0, 0, .shalt⟩
      o.fsm = .shalt ∧ o.arch.halted = true := by decide

theorem witness_ResetStateHoldsTheLoggedChoices : State.reset.mem = [] := rfl

theorem witness_CycleCountsOfTheTable :
    let f : Flags := ⟨true, false, true, false⟩
    (Instr.jmpnr 1, true) ∈ [(Instr.jmpnr 1, f.n), (.jmpzr 1, f.z), (.jmpcd 0, f.c), (.jmpvd 0, f.v)] ∧
      (Instr.jmpvd 0, false) ∈ [(Instr.jmpnr 1, f.n), (.jmpzr 1, f.z), (.jmpcd 0, f.c), (.jmpvd 0, f.v)] := by decide

/-- One step, of NOP; with k = 0 the hypotheses hold of every state. -/
theorem witness_AverageCyclesBetweenTwoAndFour :
    ∃ t, run 1 nopState = .next t ∧ ∀ j < 1, ∀ u, run j nopState = .next u → u.halted = false := by
  refine ⟨_, rfl, fun j hj u hu => ?_⟩
  obtain rfl : j = 0 := by omega
  injection hu with hu
  subst hu; rfl

theorem witness_OrganisationRefinesTheStep :
    nopState.halted = false ∧ decode (nopState.mem.readWord nopState.pc) = .ok .nop := by decide

/-- PUSH R1 with SP = 0000, which writes data. -/
theorem witness_OneFetchAndAtMostOneDataAccess :
    let s := machine 0x0040 0xB10A ⟨false, false, false, false⟩ 0x0000 [(1, 0xAAAA)] []
    s.halted = false ∧ decode (s.mem.readWord s.pc) = .ok (.push 1) ∧ dataWriteAddress (.push 1) s = some 0 := by decide

theorem witness_JumpTargetReachesRaluTakenOrNot :
    let s := machine 0x0040 0xC012 ⟨false, false, false, false⟩ 0 [(1, 0x0010)] []
    decode (s.mem.readWord s.pc) = .ok (.jmpzr 1) ∧ s.flags.z = false ∧
      decode (nopState.mem.writeWord nopState.pc 0xE200 |>.readWord nopState.pc) = .ok (.jmpnd 0x200) ∧
      nopState.flags.n = true := by decide

theorem witness_FormatRRRFieldsAreReadAndWritten :
    (0x0FFF : Word).toNat / 4096 = 0 ∧ (0xA000 : Word).toNat / 4096 = 10 ∧ (0xAFFF : Word).toNat / 4096 = 10 := by decide

end Sys2Proof.Tests
end

/-!
PROOFS of the family 10_state.md: what a meaning does with the instruction register (R31) and with the register bank (R23),
said once per shared form of a meaning, and the statements put together from that.
-/

namespace Sys2Proof.Machine

/-! ## The reset values (R36). -/

/-- Settles O51: both resets are records that state these two fields. -/
theorem resetStartsFetchAtZero : Obligations.ResetStartsFetchAtZero :=
  ⟨⟨rfl, rfl⟩, fun _ _ => ⟨rfl, rfl⟩⟩

/-! ## The instruction register (R31). -/

/-- `o` completes from `s` with IR kept, and `o'` is the same outcome with `w` carried through in IR. -/
def CarriesIr (s : State) (w : Word) (o o' : Host.Outcome State Fault Refusal) : Prop :=
  ∃ t, o = .next t ∧ t.ir = s.ir ∧ o' = .next { t with ir := w }

section
variable (rt : Reg) (a b v : Word) (taken : Bool) (s : State) (w : Word)

theorem writeSum_carriesIr : CarriesIr s w (writeSum rt a b s) (writeSum rt a b { s with ir := w }) :=
  ⟨_, rfl, rfl, rfl⟩

theorem writeDifference_carriesIr :
    CarriesIr s w (writeDifference rt a b s) (writeDifference rt a b { s with ir := w }) :=
  ⟨_, rfl, rfl, rfl⟩

theorem writeLogic_carriesIr : CarriesIr s w (writeLogic rt v s) (writeLogic rt v { s with ir := w }) :=
  ⟨_, rfl, rfl, rfl⟩

theorem setReg_carriesIr : CarriesIr s w (.next (s.setReg rt v)) (.next (({ s with ir := w } : State).setReg rt v)) :=
  ⟨_, rfl, rfl, rfl⟩

theorem jumpWhen_carriesIr : CarriesIr s w (jumpWhen taken v s) (jumpWhen taken v { s with ir := w }) :=
  ⟨_, jumpWhen_eq taken v s, rfl, jumpWhen_eq taken v _⟩

theorem callTo_carriesIr : CarriesIr s w (callTo v s) (callTo v { s with ir := w }) :=
  ⟨_, callTo_eq v s, rfl, callTo_eq v _⟩

end

/-- No meaning writes IR, and none takes an operand from it. -/
theorem exec_carriesIr (i : Instr) (s : State) (w : Word) : CarriesIr s w (exec i s) (exec i { s with ir := w }) := by
  cases i with
  | add | addi => exact writeSum_carriesIr _ _ _ s w
  | sub | subi => exact writeDifference_carriesIr _ _ _ s w
  | and | or | xor | sl0 | sl1 | sr0 | sr1 | not => exact writeLogic_carriesIr _ _ s w
  | ldl | ldh | ld => exact setReg_carriesIr _ _ s w
  | jmpr | jmpnr | jmpzr | jmpcr | jmpvr => exact jumpWhen_carriesIr _ _ s w
  | jmp | jmpn | jmpz | jmpc | jmpv => exact jumpWhen_carriesIr _ _ s w
  | jmpd | jmpnd | jmpzd | jmpcd | jmpvd => exact jumpWhen_carriesIr _ _ s w
  | jsrr | jsr | jsrd => exact callTo_carriesIr _ s w
  | st | push | pop | rts | ldsp | nop | halt => exact ⟨_, rfl, rfl, rfl⟩

/-- A meaning that completes has kept IR. -/
theorem ir_of_exec {i : Instr} {s t : State} (h : exec i s = .next t) : t.ir = s.ir := by
  obtain ⟨u, hu, hir, -⟩ := exec_carriesIr i s s.ir
  obtain rfl : u = t := Host.Outcome.next.inj (hu.symm.trans h)
  exact hir

/-- A running step that completes leaves the word it fetched in IR. -/
theorem ir_of_step {s t : State} (hrun : s.halted = false) (h : step s = .next t) : t.ir = s.mem.readWord s.pc := by
  cases hd : decode (s.mem.readWord s.pc) with
  | ok i => exact ir_of_exec ((step_decoded s i hrun hd).symm.trans h)
  | error e => cases (step_unassigned s e hrun hd).symm.trans h

/-- Settles O49: each meaning carries IR through, so that a step leaves there what its fetch wrote. -/
theorem instructionRegisterIsWrittenByFetchOnly : Obligations.InstructionRegisterIsWrittenByFetchOnly := by
  refine ⟨exec_carriesIr, fun s t h => ⟨fun hrun => ir_of_step hrun h, fun hhalt => ?_⟩⟩
  obtain rfl : s = t := Host.Outcome.next.inj ((step_halted s hhalt).symm.trans h)
  rfl

/-! ## The register bank (R23). -/

/-- `o` from `s` and `o'` from `s` with the bank `b` complete, end equal outside the bank and in the target `target`, and each
keeps every other register of its own bank. -/
def BankEffect (target : Option Reg) (s : State) (b : Vector Word 16) (o o' : Host.Outcome State Fault Refusal) : Prop :=
  ∃ t t', o = .next t ∧ o' = .next t' ∧ t' = { t with regs := t'.regs } ∧
    (∀ r, target = some r → t'.reg r = t.reg r) ∧
    ∀ r, target ≠ some r → t.reg r = s.reg r ∧ t'.reg r = ({ s with regs := b } : State).reg r

section
variable {s : State} {b : Vector Word 16} {o o' : Host.Outcome State Fault Refusal}

/-- Outcomes that agree on `u` outside the bank and keep their banks have no target. -/
theorem bankEffect_none (u : State) (h : o = .next { u with regs := s.regs }) (h' : o' = .next { u with regs := b }) :
    BankEffect none s b o o' :=
  ⟨_, _, h, h', rfl, nofun, fun _ _ => ⟨rfl, rfl⟩⟩

/-- Outcomes that agree on `u` outside the bank and write the same value to `rt` have the target `rt`. -/
theorem bankEffect_some (rt : Reg) (v : Word) (u : State) (h : o = .next (({ u with regs := s.regs } : State).setReg rt v))
    (h' : o' = .next (({ u with regs := b } : State).setReg rt v)) : BankEffect (some rt) s b o o' := by
  refine ⟨_, _, h, h', rfl, fun r hr => ?_, fun r hr => ?_⟩
  · obtain rfl : rt = r := Option.some.inj hr
    simp only [reg_setReg_same]
  · have hne : r ≠ rt := fun e => hr (congrArg some e.symm)
    simp only [reg_setReg_other _ _ _ _ hne]
    exact ⟨rfl, rfl⟩

variable {rt : Reg} {x x' y y' v v' : Word}

theorem writeSum_bankEffect (hx : x' = x) (hy : y' = y) :
    BankEffect (some rt) s b (writeSum rt x y s) (writeSum rt x' y' { s with regs := b }) := by
  subst hx hy
  exact bankEffect_some rt (x' + y') (s.setNZCV (x' + y') (addCarry x' y') (addOverflow x' y')) rfl rfl

theorem writeDifference_bankEffect (hx : x' = x) (hy : y' = y) :
    BankEffect (some rt) s b (writeDifference rt x y s) (writeDifference rt x' y' { s with regs := b }) := by
  subst hx hy
  exact bankEffect_some rt (x' - y') (s.setNZCV (x' - y') (subCarry x' y') (subOverflow x' y')) rfl rfl

theorem writeLogic_bankEffect (hv : v' = v) :
    BankEffect (some rt) s b (writeLogic rt v s) (writeLogic rt v' { s with regs := b }) := by
  subst hv
  exact bankEffect_some rt v' (s.setNZ v') rfl rfl

theorem setReg_bankEffect (hv : v' = v) :
    BankEffect (some rt) s b (.next (s.setReg rt v)) (.next (({ s with regs := b } : State).setReg rt v')) := by
  subst hv
  exact bankEffect_some rt v' s rfl rfl

theorem jumpWhen_bankEffect (taken : Bool) (hv : v' = v) :
    BankEffect none s b (jumpWhen taken v s) (jumpWhen taken v' { s with regs := b }) := by
  subst hv
  exact bankEffect_none { s with pc := if taken then v' else s.pc } (jumpWhen_eq taken v' s) (jumpWhen_eq taken v' _)

theorem callTo_bankEffect (hv : v' = v) :
    BankEffect none s b (callTo v s) (callTo v' { s with regs := b }) := by
  subst hv
  exact bankEffect_none { s with mem := s.mem.writeWord s.sp s.pc, sp := s.sp - 1, pc := v' } rfl rfl

end

/-- Each meaning, by its form: equal sources give the form equal operands. -/
theorem exec_bankEffect (i : Instr) (s : State) (b : Vector Word 16)
    (hread : ∀ r ∈ regsRead i, ({ s with regs := b } : State).reg r = s.reg r) :
    BankEffect (regWritten i) s b (exec i s) (exec i { s with regs := b }) := by
  cases i with
  | add rt rs1 rs2 =>
    exact writeSum_bankEffect (hread rs1 (by simp [regsRead])) (hread rs2 (by simp [regsRead]))
  | sub rt rs1 rs2 =>
    exact writeDifference_bankEffect (hread rs1 (by simp [regsRead])) (hread rs2 (by simp [regsRead]))
  | and rt rs1 rs2 | or rt rs1 rs2 | xor rt rs1 rs2 =>
    have h1 := hread rs1 (by simp [regsRead])
    have h2 := hread rs2 (by simp [regsRead])
    exact writeLogic_bankEffect (by rw [h1, h2])
  | addi rt c => exact writeSum_bankEffect (hread rt (by simp [regsRead])) rfl
  | subi rt c => exact writeDifference_bankEffect (hread rt (by simp [regsRead])) rfl
  | sl0 rt rs1 | sl1 rt rs1 | sr0 rt rs1 | sr1 rt rs1 | not rt rs1 =>
    have h1 := hread rs1 (by simp [regsRead])
    exact writeLogic_bankEffect (by rw [h1])
  | ldl rt c | ldh rt c =>
    have ht := hread rt (by simp [regsRead])
    exact setReg_bankEffect (by rw [ht])
  | ld rt rs1 rs2 =>
    have h1 := hread rs1 (by simp [regsRead])
    have h2 := hread rs2 (by simp [regsRead])
    exact setReg_bankEffect (by rw [effectiveAddress, effectiveAddress, h1, h2])
  | st rt rs1 rs2 =>
    have ht := hread rt (by simp [regsRead])
    have h1 := hread rs1 (by simp [regsRead])
    have h2 := hread rs2 (by simp [regsRead])
    refine bankEffect_none { s with mem := s.mem.writeWord (effectiveAddress s rs1 rs2) (s.reg rt) } rfl ?_
    rw [exec_st, effectiveAddress, effectiveAddress, ht, h1, h2]
  | push rt =>
    have ht := hread rt (by simp [regsRead])
    refine bankEffect_none { s with mem := s.mem.writeWord s.sp (s.reg rt), sp := s.sp - 1 } rfl ?_
    rw [exec_push, ht]
  | ldsp rs1 =>
    have h1 := hread rs1 (by simp [regsRead])
    refine bankEffect_none (s.setSp (s.reg rs1)) rfl ?_
    rw [exec_ldsp, h1]; rfl
  | pop rt => exact bankEffect_some rt (s.mem.readWord (s.sp + 1)) (s.setSp (s.sp + 1)) rfl rfl
  | rts => exact bankEffect_none { s with pc := s.mem.readWord (s.sp + 1), sp := s.sp + 1 } rfl rfl
  | nop => exact bankEffect_none s rfl rfl
  | halt => exact bankEffect_none s.setHalted rfl rfl
  | jmpr rs1 | jmpnr rs1 | jmpzr rs1 | jmpcr rs1 | jmpvr rs1 =>
    have h1 := hread rs1 (by simp [regsRead])
    exact jumpWhen_bankEffect _ (congrArg (s.pc + ·) h1)
  | jmp rs1 | jmpn rs1 | jmpz rs1 | jmpc rs1 | jmpv rs1 =>
    exact jumpWhen_bankEffect _ (hread rs1 (by simp [regsRead]))
  | jmpd | jmpnd | jmpzd | jmpcd | jmpvd => exact jumpWhen_bankEffect _ rfl
  | jsrr rs1 =>
    have h1 := hread rs1 (by simp [regsRead])
    exact callTo_bankEffect (congrArg (s.pc + ·) h1)
  | jsr rs1 => exact callTo_bankEffect (hread rs1 (by simp [regsRead]))
  | jsrd => exact callTo_bankEffect rfl

/-- Settles O43, by the form of each meaning: its target and what it does outside the bank come from its sources alone. -/
theorem bankIsReadAndWrittenAsListed : Obligations.BankIsReadAndWrittenAsListed := by
  intro i s s' hs hread
  obtain ⟨b, rfl⟩ : ∃ b, s' = { s with regs := b } := ⟨_, hs⟩
  exact exec_bankEffect i s b hread

end Sys2Proof.Machine

/-!
PROOFS of the family 30_encoding.md: the encoder and the decoder's arm of an instruction of format RRR are fixed by its major
opcode (R62); the arithmetic of its word, and of every word with that opcode, follows from this once for the format.
-/

namespace Sys2Proof

/-! ## Format RRR (R62). -/

/-- `mk` makes the instructions of format RRR with the major opcode `op`. -/
structure IsFormatRRR (op : Nat) (mk : Reg → Reg → Reg → Instr) : Prop where
  op_lt : op < 16
  encode_eq : ∀ rt rs1 rs2, encode (mk rt rs1 rs2) = encodeRRR (BitVec.ofNat 4 op) rt rs1 rs2
  decode_of_fieldOp : ∀ w, (fieldOp w).toNat = op → decode w = .ok (mk (fieldRt w) (fieldRs1 w) (fieldRs2 w))

/-- The major opcode is the word's leading digit: nothing of the word stands above it. -/
theorem toNat_fieldOp_eq_div (w : Word) : (fieldOp w).toNat = w.toNat / 4096 := by
  rw [toNat_fieldOp]; omega

theorem fieldRt_eq_ofNat (w : Word) : fieldRt w = BitVec.ofNat 4 (w.toNat / 256) :=
  BitVec.eq_of_toNat_eq (toNat_fieldRt w)

theorem fieldRs1_eq_ofNat (w : Word) : fieldRs1 w = BitVec.ofNat 4 (w.toNat / 16) :=
  BitVec.eq_of_toNat_eq (toNat_fieldRs1 w)

theorem fieldRs2_eq_ofNat (w : Word) : fieldRs2 w = BitVec.ofNat 4 w.toNat :=
  BitVec.eq_of_toNat_eq (toNat_fieldRs2 w)

namespace IsFormatRRR
variable {op : Nat} {mk : Reg → Reg → Reg → Instr}

theorem toNat_encode (h : IsFormatRRR op mk) (rt rs1 rs2 : Reg) :
    (encode (mk rt rs1 rs2)).toNat = 4096 * op + 256 * rt.toNat + 16 * rs1.toNat + rs2.toNat := by
  have hop : (BitVec.ofNat 4 op).toNat = op := Nat.mod_eq_of_lt h.op_lt
  rw [h.encode_eq, toNat_encodeRRR, hop]; omega

theorem decode_encode (h : IsFormatRRR op mk) (rt rs1 rs2 : Reg) :
    decode (encode (mk rt rs1 rs2)) = .ok (mk rt rs1 rs2) := by
  have hop : (fieldOp (encode (mk rt rs1 rs2))).toNat = op := by
    rw [h.encode_eq, fieldOp_encodeRRR]; exact Nat.mod_eq_of_lt h.op_lt
  rw [h.decode_of_fieldOp _ hop, h.encode_eq, fieldRt_encodeRRR, fieldRs1_encodeRRR, fieldRs2_encodeRRR]

theorem decode_of_div (h : IsFormatRRR op mk) (w : Word) (hw : w.toNat / 4096 = op) :
    decode w = .ok (mk (BitVec.ofNat 4 (w.toNat / 256)) (BitVec.ofNat 4 (w.toNat / 16)) (BitVec.ofNat 4 w.toNat)) := by
  have hop : (fieldOp w).toNat = op := (toNat_fieldOp_eq_div w).trans hw
  rw [h.decode_of_fieldOp w hop, fieldRt_eq_ofNat, fieldRs1_eq_ofNat, fieldRs2_eq_ofNat]

end IsFormatRRR

/-- Settles O60: each of the seven has format RRR by its line of the encoder and its arm of the decoder, and the format fixes
its word and the reading of every word with its opcode. -/
theorem formatRRRFieldsAreReadAndWritten : Obligations.FormatRRRFieldsAreReadAndWritten := by
  intro f hf
  have hformat : IsFormatRRR f.1 f.2 := by
    simp only [List.mem_cons, List.not_mem_nil, or_false] at hf
    obtain rfl | rfl | rfl | rfl | rfl | rfl | rfl := hf
    all_goals exact ⟨by decide, fun _ _ _ => rfl, fun w h => by simp only [decode_eq, decodeFields, h]⟩
  exact ⟨fun rt rs1 rs2 => ⟨hformat.toNat_encode rt rs1 rs2, hformat.decode_encode rt rs1 rs2⟩, hformat.decode_of_div⟩

end Sys2Proof

/-!
PROOFS of the family 'other', the decoder: an instruction's row of the opcode table, what a word covered by that row decodes to,
and the statements about the encoding put together from that.
-/

namespace Sys2Proof

/-! ## Words that hold the fields of an instruction. -/

/-- Settles O5: fourteen words, decoded. -/
theorem sampleWordsDecode : Obligations.SampleWordsDecode := by
  unfold Obligations.SampleWordsDecode
  decide

/-- The converse of `standsIn_of_decode`: the decoder reads the opcodes of a word, then hands on its operands. -/
theorem decode_of_standsIn {w : Word} {i : Instr} (h : i.standsIn w) : decode w = .ok i := by
  cases i with
  | add | sub | and | or | xor | ld | st =>
    obtain ⟨hop, rfl, rfl, rfl⟩ := h
    simp [decode_eq, decodeFields, hop]
  | addi | subi | ldl | ldh =>
    obtain ⟨hop, rfl, rfl⟩ := h
    simp [decode_eq, decodeFields, hop]
  | sl0 | sl1 | sr0 | sr1 | not =>
    obtain ⟨hop, hsub, rfl, rfl⟩ := h
    simp [decode_eq, decodeFields, decodeUnary, hop, hsub]
  | nop | halt | rts =>
    obtain ⟨hop, hsub⟩ := h
    simp [decode_eq, decodeFields, decodeUnary, hop, hsub]
  | ldsp | pop | push =>
    obtain ⟨hop, hsub, rfl⟩ := h
    simp [decode_eq, decodeFields, decodeUnary, hop, hsub]
  | jmpr | jmpnr | jmpzr | jmpcr | jmpvr | jmp | jmpn | jmpz | jmpc | jmpv | jsrr | jsr =>
    obtain ⟨hop, hsub, rfl⟩ := h
    simp [decode_eq, decodeFields, decodeJump, hop, hsub]
  | jmpnd | jmpzd | jmpcd | jmpvd =>
    obtain ⟨hop, hcond, rfl⟩ := h
    simp [decode_eq, decodeFields, decodeConditional, hop, hcond]
  | jmpd | jsrd =>
    obtain ⟨hop, rfl⟩ := h
    simp [decode_eq, decodeFields, hop]

/-- The encoder puts each field of an instruction in its place, format by format. -/
theorem standsIn_encode (i : Instr) : i.standsIn (encode i) := by
  cases i with
  | add | sub | and | or | xor | ld | st => simp [Instr.standsIn, encode]
  | addi | subi | ldl | ldh => simp [Instr.standsIn, encode]
  | sl0 | sl1 | sr0 | sr1 | not | nop | halt | ldsp | rts | pop | push => simp [Instr.standsIn, encode]
  | jmpr | jmpnr | jmpzr | jmpcr | jmpvr | jmp | jmpn | jmpz | jmpc | jmpv | jsrr | jsr =>
    simp [Instr.standsIn, encode]
  | jmpd | jmpnd | jmpzd | jmpcd | jmpvd => simp [Instr.standsIn, encode]
  | jsrd => simp [Instr.standsIn, encode]

theorem decode_encode (i : Instr) : decode (encode i) = .ok i :=
  decode_of_standsIn (standsIn_encode i)

/-- Settles O1: the encoder puts each field where the decoder reads it. -/
theorem decodeOfEncodeIsTheInstruction : Obligations.DecodeOfEncodeIsTheInstruction :=
  decode_encode

/-! ## The masks of the opcode table, by format (R72 to R74). -/

theorem covers_iff (row : OpcodeRow) (w : Word) : row.covers w = true ↔ w &&& row.mask = row.pattern := by
  simp [OpcodeRow.covers]

theorem coversStrictly_iff (row : OpcodeRow) (w : Word) :
    row.coversStrictly w = true ↔ w &&& row.strictMask = row.pattern := by
  simp [OpcodeRow.coversStrictly]

section
variable (w : Word) {op sub : BitVec 4} {cond : BitVec 2} {p : Word}

theorem and_F000_iff_fieldOp (hp : encodeRRR op 0 0 0 = p) : w &&& 0xF000#16 = p ↔ fieldOp w = op := by
  subst hp
  simp only [← BitVec.toNat_inj, toNat_and_F000, toNat_encodeRRR, toNat_fieldOp,
    BitVec.ofNat_eq_ofNat, BitVec.toNat_ofNat, Nat.zero_mod]
  omega

theorem and_F00F_iff_fieldOp_fieldSub (hp : encodeRS op 0 0 sub = p) :
    w &&& 0xF00F#16 = p ↔ fieldOp w = op ∧ fieldSub w = sub := by
  subst hp
  simp only [← BitVec.toNat_inj, toNat_and_F00F, toNat_encodeRS, toNat_fieldOp, toNat_fieldSub,
    BitVec.ofNat_eq_ofNat, BitVec.toNat_ofNat, Nat.zero_mod]
  omega

theorem and_FC00_iff_fieldOp_fieldCond (hp : encodeD10 op cond 0 = p) :
    w &&& 0xFC00#16 = p ↔ fieldOp w = op ∧ fieldCond w = cond := by
  subst hp
  simp only [← BitVec.toNat_inj, toNat_and_FC00, toNat_encodeD10, toNat_fieldOp, toNat_fieldCond,
    BitVec.ofNat_eq_ofNat, BitVec.toNat_ofNat, Nat.zero_mod]
  omega

theorem and_F000_iff_encodeRRR (hp : encodeRRR op 0 0 0 = p) :
    w &&& 0xF000#16 = p ↔ encodeRRR op (fieldRt w) (fieldRs1 w) (fieldRs2 w) = w := by
  subst hp
  simp only [← BitVec.toNat_inj, toNat_and_F000, toNat_encodeRRR, toNat_fieldRt, toNat_fieldRs1, toNat_fieldRs2,
    BitVec.ofNat_eq_ofNat, BitVec.toNat_ofNat, Nat.zero_mod]
  omega

theorem and_F000_iff_encodeRI (hp : encodeRRR op 0 0 0 = p) :
    w &&& 0xF000#16 = p ↔ encodeRI op (fieldRt w) (fieldImm8 w) = w := by
  subst hp
  simp only [← BitVec.toNat_inj, toNat_and_F000, toNat_encodeRRR, toNat_encodeRI, toNat_fieldRt, toNat_fieldImm8,
    BitVec.ofNat_eq_ofNat, BitVec.toNat_ofNat, Nat.zero_mod]
  omega

theorem and_F000_iff_encodeD12 (hp : encodeRRR op 0 0 0 = p) :
    w &&& 0xF000#16 = p ↔ encodeD12 op (fieldDisp12 w) = w := by
  subst hp
  simp only [← BitVec.toNat_inj, toNat_and_F000, toNat_encodeRRR, toNat_encodeD12, toNat_fieldDisp12,
    BitVec.ofNat_eq_ofNat, BitVec.toNat_ofNat, Nat.zero_mod]
  omega

theorem and_FC00_iff_encodeD10 (hp : encodeD10 op cond 0 = p) :
    w &&& 0xFC00#16 = p ↔ encodeD10 op cond (fieldDisp10 w) = w := by
  subst hp
  simp only [← BitVec.toNat_inj, toNat_and_FC00, toNat_encodeD10, toNat_fieldDisp10,
    BitVec.ofNat_eq_ofNat, BitVec.toNat_ofNat, Nat.zero_mod]
  omega

theorem and_F00F_iff_encodeRS (hp : encodeRS op 0 0 sub = p) :
    w &&& 0xF00F#16 = p ↔ encodeRS op (fieldRt w) (fieldRs1 w) sub = w := by
  subst hp
  simp only [← BitVec.toNat_inj, toNat_and_F00F, toNat_encodeRS, toNat_fieldRt, toNat_fieldRs1,
    BitVec.ofNat_eq_ofNat, BitVec.toNat_ofNat, Nat.zero_mod]
  omega

theorem and_FF0F_iff_encodeRS (hp : encodeRS op 0 0 sub = p) :
    w &&& 0xFF0F#16 = p ↔ encodeRS op 0 (fieldRs1 w) sub = w := by
  subst hp
  simp only [← BitVec.toNat_inj, toNat_and_FF0F, toNat_encodeRS, toNat_fieldRs1,
    BitVec.ofNat_eq_ofNat, BitVec.toNat_ofNat, Nat.zero_mod]
  omega

theorem and_F0FF_iff_encodeRS (hp : encodeRS op 0 0 sub = p) :
    w &&& 0xF0FF#16 = p ↔ encodeRS op (fieldRt w) 0 sub = w := by
  subst hp
  simp only [← BitVec.toNat_inj, toNat_and_F0FF, toNat_encodeRS, toNat_fieldRt,
    BitVec.ofNat_eq_ofNat, BitVec.toNat_ofNat, Nat.zero_mod]
  omega

theorem and_FFFF_iff_encodeRS (hp : encodeRS op 0 0 sub = p) : w &&& 0xFFFF#16 = p ↔ encodeRS op 0 0 sub = w := by
  subst hp
  rw [show w &&& 0xFFFF#16 = w from BitVec.and_allOnes, eq_comm]

end

/-! ## The row of an instruction. -/

/-- The row of an instruction: the table and the constructors of `Instr` stand in the same order (R84). -/
def Instr.row (i : Instr) : OpcodeRow := opcodeTable[i.ctorIdx]'(by cases i <;> exact Nat.le_of_ble_eq_true rfl)

/-- The instruction of the same row whose operands are the fields of `w`. -/
def Instr.withFieldsOf (w : Word) : Instr → Instr
  | .add _ _ _ => .add (fieldRt w) (fieldRs1 w) (fieldRs2 w)
  | .sub _ _ _ => .sub (fieldRt w) (fieldRs1 w) (fieldRs2 w)
  | .and _ _ _ => .and (fieldRt w) (fieldRs1 w) (fieldRs2 w)
  | .or _ _ _ => .or (fieldRt w) (fieldRs1 w) (fieldRs2 w)
  | .xor _ _ _ => .xor (fieldRt w) (fieldRs1 w) (fieldRs2 w)
  | .addi _ _ => .addi (fieldRt w) (fieldImm8 w)
  | .subi _ _ => .subi (fieldRt w) (fieldImm8 w)
  | .ldl _ _ => .ldl (fieldRt w) (fieldImm8 w)
  | .ldh _ _ => .ldh (fieldRt w) (fieldImm8 w)
  | .ld _ _ _ => .ld (fieldRt w) (fieldRs1 w) (fieldRs2 w)
  | .st _ _ _ => .st (fieldRt w) (fieldRs1 w) (fieldRs2 w)
  | .sl0 _ _ => .sl0 (fieldRt w) (fieldRs1 w)
  | .sl1 _ _ => .sl1 (fieldRt w) (fieldRs1 w)
  | .sr0 _ _ => .sr0 (fieldRt w) (fieldRs1 w)
  | .sr1 _ _ => .sr1 (fieldRt w) (fieldRs1 w)
  | .not _ _ => .not (fieldRt w) (fieldRs1 w)
  | .nop => .nop
  | .halt => .halt
  | .ldsp _ => .ldsp (fieldRs1 w)
  | .rts => .rts
  | .pop _ => .pop (fieldRt w)
  | .push _ => .push (fieldRt w)
  | .jmpr _ => .jmpr (fieldRs1 w)
  | .jmpnr _ => .jmpnr (fieldRs1 w)
  | .jmpzr _ => .jmpzr (fieldRs1 w)
  | .jmpcr _ => .jmpcr (fieldRs1 w)
  | .jmpvr _ => .jmpvr (fieldRs1 w)
  | .jmp _ => .jmp (fieldRs1 w)
  | .jmpn _ => .jmpn (fieldRs1 w)
  | .jmpz _ => .jmpz (fieldRs1 w)
  | .jmpc _ => .jmpc (fieldRs1 w)
  | .jmpv _ => .jmpv (fieldRs1 w)
  | .jsrr _ => .jsrr (fieldRs1 w)
  | .jsr _ => .jsr (fieldRs1 w)
  | .jmpd _ => .jmpd (fieldDisp10 w)
  | .jmpnd _ => .jmpnd (fieldDisp10 w)
  | .jmpzd _ => .jmpzd (fieldDisp10 w)
  | .jmpcd _ => .jmpcd (fieldDisp10 w)
  | .jmpvd _ => .jmpvd (fieldDisp10 w)
  | .jsrd _ => .jsrd (fieldDisp12 w)

/-- One instruction of each row, in the table's order. -/
def oneOfEachRow : List Instr :=
  [.add 0 0 0, .sub 0 0 0, .and 0 0 0, .or 0 0 0, .xor 0 0 0, .addi 0 0, .subi 0 0, .ldl 0 0, .ldh 0 0, .ld 0 0 0,
   .st 0 0 0, .sl0 0 0, .sl1 0 0, .sr0 0 0, .sr1 0 0, .not 0 0, .nop, .halt, .ldsp 0, .rts, .pop 0, .push 0, .jmpr 0,
   .jmpnr 0, .jmpzr 0, .jmpcr 0, .jmpvr 0, .jmp 0, .jmpn 0, .jmpz 0, .jmpc 0, .jmpv 0, .jsrr 0, .jsr 0, .jmpd 0,
   .jmpnd 0, .jmpzd 0, .jmpcd 0, .jmpvd 0, .jsrd 0]

theorem row_mem_opcodeTable (i : Instr) : i.row ∈ opcodeTable := List.getElem_mem _

theorem exists_row_eq {row : OpcodeRow} (h : row ∈ opcodeTable) : ∃ i : Instr, i.row = row := by
  have htable : opcodeTable = oneOfEachRow.map Instr.row := rfl
  rw [htable] at h
  obtain ⟨i, -, hi⟩ := List.mem_map.1 h
  exact ⟨i, hi⟩

theorem mnemonic_withFieldsOf (i : Instr) (w : Word) : (i.withFieldsOf w).mnemonic = i.row.mnemonic := by
  cases i <;> rfl

/-- The operands of an instruction that stands in `w` are the fields of `w`. -/
theorem withFieldsOf_of_standsIn {i : Instr} {w : Word} (h : i.standsIn w) : i.withFieldsOf w = i := by
  cases i with
  | add | sub | and | or | xor | ld | st => obtain ⟨-, rfl, rfl, rfl⟩ := h; rfl
  | addi | subi | ldl | ldh => obtain ⟨-, rfl, rfl⟩ := h; rfl
  | sl0 | sl1 | sr0 | sr1 | not => obtain ⟨-, -, rfl, rfl⟩ := h; rfl
  | nop | halt | rts => rfl
  | ldsp | pop | push => obtain ⟨-, -, rfl⟩ := h; rfl
  | jmpr | jmpnr | jmpzr | jmpcr | jmpvr | jmp | jmpn | jmpz | jmpc | jmpv | jsrr | jsr =>
    obtain ⟨-, -, rfl⟩ := h; rfl
  | jmpnd | jmpzd | jmpcd | jmpvd => obtain ⟨-, -, rfl⟩ := h; rfl
  | jmpd | jsrd => obtain ⟨-, rfl⟩ := h; rfl

/-- A row's mask fixes the opcodes of its instructions, and nothing else. -/
theorem covers_row_iff (i : Instr) (w : Word) : i.row.covers w = true ↔ (i.withFieldsOf w).standsIn w := by
  rw [covers_iff]
  cases i with
  | add | sub | and | or | xor | ld | st =>
    simp only [Instr.withFieldsOf, Instr.standsIn, and_true]
    exact and_F000_iff_fieldOp w rfl
  | addi | subi | ldl | ldh | jmpd | jsrd =>
    simp only [Instr.withFieldsOf, Instr.standsIn, and_true]
    exact and_F000_iff_fieldOp w rfl
  | jmpnd | jmpzd | jmpcd | jmpvd =>
    simp only [Instr.withFieldsOf, Instr.standsIn, and_true]
    exact and_FC00_iff_fieldOp_fieldCond w rfl
  | sl0 | sl1 | sr0 | sr1 | not | nop | halt | ldsp | rts | pop | push =>
    simp only [Instr.withFieldsOf, Instr.standsIn, and_true]
    exact and_F00F_iff_fieldOp_fieldSub w rfl
  | jmpr | jmpnr | jmpzr | jmpcr | jmpvr | jmp | jmpn | jmpz | jmpc | jmpv | jsrr | jsr =>
    simp only [Instr.withFieldsOf, Instr.standsIn, and_true]
    exact and_F00F_iff_fieldOp_fieldSub w rfl

/-- A row's strict mask fixes all of a word but the operands. -/
theorem coversStrictly_row_iff (i : Instr) (w : Word) :
    i.row.coversStrictly w = true ↔ encode (i.withFieldsOf w) = w := by
  rw [coversStrictly_iff]
  cases i with
  | add | sub | and | or | xor | ld | st => exact and_F000_iff_encodeRRR w rfl
  | addi | subi | ldl | ldh => exact and_F000_iff_encodeRI w rfl
  | sl0 | sl1 | sr0 | sr1 | not => exact and_F00F_iff_encodeRS w rfl
  | nop | halt | rts => exact and_FFFF_iff_encodeRS w rfl
  | ldsp => exact and_FF0F_iff_encodeRS w rfl
  | pop | push => exact and_F0FF_iff_encodeRS w rfl
  | jmpr | jmpnr | jmpzr | jmpcr | jmpvr | jmp | jmpn | jmpz | jmpc | jmpv | jsrr | jsr =>
    exact and_FF0F_iff_encodeRS w rfl
  | jmpd | jmpnd | jmpzd | jmpcd | jmpvd => exact and_FC00_iff_encodeD10 w rfl
  | jsrd => exact and_F000_iff_encodeD12 w rfl

/-! ## The decoder against the table. -/

theorem decode_of_covers_row {i : Instr} {w : Word} (h : i.row.covers w = true) : decode w = .ok (i.withFieldsOf w) :=
  decode_of_standsIn ((covers_row_iff i w).1 h)

theorem row_covers_of_decode {i : Instr} {w : Word} (h : decode w = .ok i) : i.row.covers w = true := by
  have hstands := standsIn_of_decode h
  rwa [covers_row_iff, withFieldsOf_of_standsIn hstands]

theorem row_coversStrictly_encode (i : Instr) : i.row.coversStrictly (encode i) = true := by
  rw [coversStrictly_row_iff, withFieldsOf_of_standsIn (standsIn_encode i)]

/-- A canonical word of a row is one of the row's words. -/
theorem row_covers_of_coversStrictly {i : Instr} {w : Word} (h : i.row.coversStrictly w = true) :
    i.row.covers w = true := by
  have hencode := (coversStrictly_row_iff i w).1 h
  have hstands := standsIn_encode (i.withFieldsOf w)
  rw [hencode] at hstands
  exact (covers_row_iff i w).2 hstands

/-- A word that decodes is assigned. -/
theorem assignedWord_of_decode {i : Instr} {w : Word} (h : decode w = .ok i) : assignedWord w = true :=
  List.any_eq_true.2 ⟨i.row, row_mem_opcodeTable i, row_covers_of_decode h⟩

theorem decode_error_of_not_assigned {w : Word} (h : assignedWord w = false) : ∃ e, decode w = .error e := by
  cases hd : decode w with
  | ok i => exact absurd (assignedWord_of_decode hd) (by simp [h])
  | error e => exact ⟨e, rfl⟩

/-- An assigned word decodes: one of the table's rows is that of an instruction. -/
theorem not_assigned_of_decode_error {w : Word} {e : DecodeError} (h : decode w = .error e) : assignedWord w = false := by
  by_contra hassigned
  obtain ⟨row, hrow, hcovers⟩ := List.any_eq_true.1 (Bool.not_eq_false _ ▸ hassigned)
  obtain ⟨i, rfl⟩ := exists_row_eq hrow
  cases h.symm.trans (decode_of_covers_row hcovers)

/-- Settles O3: a row's words decode to the row's instruction, and a word that decodes has the row of its instruction. -/
theorem decodesExactlyTheAssignedWords : Obligations.DecodesExactlyTheAssignedWords := by
  refine ⟨fun row hrow w hcovers => ?_, fun w => decode_error_of_not_assigned⟩
  obtain ⟨i, rfl⟩ := exists_row_eq hrow
  exact ⟨_, decode_of_covers_row hcovers, mnemonic_withFieldsOf i w⟩

/-- Settles O2: the strict mask of a row leaves only the operands free, and those the decoder hands on. -/
theorem canonicalWordsEncodeBack : Obligations.CanonicalWordsEncodeBack := by
  refine ⟨fun w i hdecode hcanonical => ?_, fun i => ?_⟩
  · obtain ⟨row, hrow, hstrict⟩ := List.any_eq_true.1 hcanonical
    obtain ⟨j, rfl⟩ := exists_row_eq hrow
    have hj : decode w = .ok (j.withFieldsOf w) := decode_of_covers_row (row_covers_of_coversStrictly hstrict)
    obtain rfl : i = j.withFieldsOf w := Except.ok.inj (hdecode.symm.trans hj)
    exact (coversStrictly_row_iff j w).1 hstrict
  · exact List.any_eq_true.2 ⟨i.row, row_mem_opcodeTable i, row_coversStrictly_encode i⟩

/-! ## The ignored fields (R74). -/

/-- Words that agree on the bits a row uses agree on a field that both of its masks fix, or leave free, alike. -/
theorem extractLsb'_congr_of_usedBits {row : OpcodeRow} {w w' : Word} (strictMask mask : Word)
    (h : w &&& Machine.usedBits row = w' &&& Machine.usedBits row) (hstrict : row.strictMask = strictMask)
    (hmask : row.mask = mask) {start len : Nat} (hfield : strictMask.extractLsb' start len = mask.extractLsb' start len) :
    w.extractLsb' start len = w'.extractLsb' start len := by
  subst hstrict hmask
  ext k hk
  have hsame := congrArg (·.getLsbD k) hfield
  have hbit := congrArg (·.getLsbD (start + k)) h
  simp only [BitVec.getLsbD_extractLsb', hk, decide_true, Bool.true_and] at hsame
  simp only [Machine.usedBits, BitVec.getLsbD_and, BitVec.getLsbD_not, BitVec.getLsbD_xor, hsame, bne_self_eq_false,
    Bool.not_false, Bool.and_true] at hbit
  by_cases hlt : start + k < 16
  · simpa [hlt] using hbit
  · simp [BitVec.getLsbD_of_ge _ _ (Nat.le_of_not_lt hlt)]

/-- A row whose masks are the same uses every bit. -/
theorem eq_of_usedBits {row : OpcodeRow} {w w' : Word} (h : w &&& Machine.usedBits row = w' &&& Machine.usedBits row)
    (hmasks : row.strictMask = row.mask) : w = w' := by
  have hall : Machine.usedBits row = BitVec.allOnes 16 := by
    rw [Machine.usedBits, hmasks, BitVec.xor_self]; rfl
  simpa only [hall, BitVec.and_allOnes] using h

/-- The operands lie within the bits a row uses. -/
theorem withFieldsOf_congr (i : Instr) {w w' : Word}
    (h : w &&& Machine.usedBits i.row = w' &&& Machine.usedBits i.row) : i.withFieldsOf w = i.withFieldsOf w' := by
  cases i with
  | add | sub | and | or | xor | ld | st => rw [eq_of_usedBits h rfl]
  | addi | subi | ldl | ldh => rw [eq_of_usedBits h rfl]
  | sl0 | sl1 | sr0 | sr1 | not => rw [eq_of_usedBits h rfl]
  | jmpnd | jmpzd | jmpcd | jmpvd | jsrd => rw [eq_of_usedBits h rfl]
  | nop | halt | rts => rfl
  | pop | push =>
    have hrt : fieldRt w = fieldRt w' := extractLsb'_congr_of_usedBits 0xF0FF 0xF00F h rfl rfl rfl
    exact congrArg _ hrt
  | ldsp | jmpr | jmpnr | jmpzr | jmpcr | jmpvr | jmp | jmpn | jmpz | jmpc | jmpv | jsrr | jsr =>
    have hrs1 : fieldRs1 w = fieldRs1 w' := extractLsb'_congr_of_usedBits 0xFF0F 0xF00F h rfl rfl rfl
    exact congrArg _ hrs1
  | jmpd =>
    have hdisp : fieldDisp10 w = fieldDisp10 w' := extractLsb'_congr_of_usedBits 0xFC00 0xF000 h rfl rfl rfl
    exact congrArg _ hdisp

/-- Settles O4: both words decode to the row's instruction with their fields, and those are equal. -/
theorem ignoredFieldsDoNotMatter : Obligations.IgnoredFieldsDoNotMatter := by
  intro row hrow w w' hw hw' hused
  obtain ⟨i, rfl⟩ := exists_row_eq hrow
  rw [decode_of_covers_row hw, decode_of_covers_row hw', withFieldsOf_congr i hused]

end Sys2Proof

/-!
PROOFS of the family 'other', memory and images: the canonical form as a set of cells, a list of words stored one after the
other, and the characters of an object line.
-/

namespace Sys2Proof.Machine

/-! ## Words and the canonical form. -/

/-- Settles O7, by the laws of memory. -/
theorem wordReadAfterWrite : Obligations.WordReadAfterWrite := fun m a b v =>
  ⟨readWord_writeWord_same m a v, readWord_writeWord_other m a b v, readByte_writeWord_other m a v⟩

/-- A cell of a rising list is found by its number. -/
theorem readByte_of_mem {m : Memory} (hrising : m.Pairwise (fun x y => x.1 < y.1)) {cell : Host.Cell} (hmem : cell ∈ m) :
    m.readByte cell.1 = cell.2 := by
  induction m with
  | nil => cases hmem
  | cons head rest ih =>
    rw [List.pairwise_cons] at hrising
    rcases List.mem_cons.1 hmem with rfl | hrest
    · simp [Memory.readByte]
    · have hlt := hrising.1 cell hrest
      simp [Memory.readByte, Nat.ne_of_lt hlt, ih hrising.2 hrest]

/-- A byte that does not read as an unlisted one is listed. -/
theorem mem_of_readByte {m : Memory} {k : Nat} (h : m.readByte k ≠ Config.unwrittenByte) : (k, m.readByte k) ∈ m := by
  induction m with
  | nil => exact absurd rfl h
  | cons head rest ih =>
    simp only [Memory.readByte] at h ⊢
    split
    · next heq => subst heq; exact List.mem_cons_self
    · next hne =>
      rw [if_neg hne] at h
      exact List.mem_cons_of_mem _ (ih h)

/-- The cells of a canonical memory are the bytes that do not read as an unlisted one. -/
theorem mem_iff_readByte {m : Memory} (h : m.wf) (cell : Host.Cell) :
    cell ∈ m ↔ m.readByte cell.1 = cell.2 ∧ cell.2 ≠ Config.unwrittenByte := by
  refine ⟨fun hmem => ⟨readByte_of_mem h.1 hmem, (h.2 cell hmem).1⟩, fun ⟨hread, hlisted⟩ => ?_⟩
  rw [← hread] at hlisted
  have hmem := mem_of_readByte hlisted
  rwa [hread] at hmem

/-- A canonical memory lists nothing past the address space. -/
theorem readByte_of_limit_le {m : Memory} (h : m.wf) {k : Nat} (hk : Memory.limit ≤ k) :
    m.readByte k = Config.unwrittenByte := by
  by_contra hlisted
  exact absurd ((h.2 _ (mem_of_readByte hlisted)).2) (Nat.not_lt.2 hk)

theorem eq_of_readByte_eq {m m' : Memory} (h : m.wf) (h' : m'.wf) (hread : ∀ k, m.readByte k = m'.readByte k) :
    m = m' := by
  have : Std.Irrefl (fun x y : Host.Cell => x.1 < y.1) := ⟨fun _ => Nat.lt_irrefl _⟩
  have : Std.Antisymm (fun x y : Host.Cell => x.1 < y.1) := ⟨fun _ _ hxy hyx => absurd hyx (Nat.lt_asymm hxy)⟩
  refine List.Pairwise.eq_of_mem_iff h.1 h'.1 fun cell => ?_
  rw [mem_iff_readByte h, mem_iff_readByte h', hread]

/-- The two halves of a word read are its two bytes. -/
theorem readByte_eq_of_readWord_eq {m m' : Memory} {a : Word} (h : m.readWord a = m'.readWord a) :
    m.readByte (highCell a) = m'.readByte (highCell a) ∧ m.readByte (lowCell a) = m'.readByte (lowCell a) := by
  have htoNat := congrArg BitVec.toNat h
  have hsum : ∀ x : Memory, (x.readWord a).toNat =
      (x.readByte (highCell a)).toNat * 2 ^ 8 + (x.readByte (lowCell a)).toNat := fun x =>
    toNat_append_mul (w := 8) (v := 8) _ _
  rw [hsum, hsum] at htoNat
  constructor <;> apply BitVec.eq_of_toNat_eq <;> omega

/-- Every cell within the address space is a half of some word. -/
theorem exists_word_of_lt_limit {k : Nat} (hk : k < Memory.limit) : ∃ a : Word, k = lowCell a ∨ k = highCell a := by
  have hlt : k / 2 < 65536 := by simp only [Memory.limit] at hk; omega
  refine ⟨BitVec.ofNat 16 (k / 2), ?_⟩
  simp only [lowCell, highCell, BitVec.toNat_ofNat, Nat.mod_eq_of_lt hlt]
  omega

/-- Settles O8: equal words are equal bytes, and a canonical list is fixed by its bytes. -/
theorem equalMemoriesAreEqualData : Obligations.EqualMemoriesAreEqualData := by
  intro m m' h h' hwords
  refine eq_of_readByte_eq h h' fun k => ?_
  by_cases hk : k < Memory.limit
  · obtain ⟨a, rfl | rfl⟩ := exists_word_of_lt_limit hk
    · exact (readByte_eq_of_readWord_eq (hwords a)).2
    · exact (readByte_eq_of_readWord_eq (hwords a)).1
  · rw [readByte_of_limit_le h (Nat.le_of_not_lt hk), readByte_of_limit_le h' (Nat.le_of_not_lt hk)]

/-! ## Loading an image (R232, R234). -/

theorem loadImage_cons (a w : Word) (rest : List (Word × Word)) (s : State) :
    loadImage ((a, w) :: rest) s = loadImage rest { s with mem := s.mem.writeWord a w } := rfl

theorem loadImage_eq_mem_update (image : List (Word × Word)) (s : State) :
    loadImage image s = { s with mem := (loadImage image s).mem } := by
  induction image generalizing s with
  | nil => rfl
  | cons p rest ih =>
    obtain ⟨a, w⟩ := p
    exact ih { s with mem := s.mem.writeWord a w }

theorem readWord_loadImage_of_not_mem {image : List (Word × Word)} {a : Word} (s : State)
    (h : a ∉ image.map Prod.fst) : (loadImage image s).mem.readWord a = s.mem.readWord a := by
  induction image generalizing s with
  | nil => rfl
  | cons p rest ih =>
    obtain ⟨b, w⟩ := p
    obtain ⟨hne, hrest⟩ : a ≠ b ∧ a ∉ rest.map Prod.fst := by simpa [not_or] using h
    rw [loadImage_cons, ih _ hrest]
    exact readWord_writeWord_other s.mem b a w hne

/-- A listed word stands at its address: no later line of the image has the same address. -/
theorem readWord_loadImage_of_mem {image : List (Word × Word)} (hnodup : (image.map Prod.fst).Nodup) (s : State)
    {p : Word × Word} (h : p ∈ image) : (loadImage image s).mem.readWord p.1 = p.2 := by
  induction image generalizing s with
  | nil => cases h
  | cons q rest ih =>
    obtain ⟨b, w⟩ := q
    obtain ⟨hfresh, hrest⟩ : b ∉ rest.map Prod.fst ∧ (rest.map Prod.fst).Nodup := List.nodup_cons.1 hnodup
    rw [loadImage_cons]
    rcases List.mem_cons.1 h with rfl | hmem
    · rw [readWord_loadImage_of_not_mem _ hfresh]
      exact readWord_writeWord_same s.mem b w
    · exact ih hrest _ hmem

/-- Settles O9, by induction over the image. -/
theorem imageLoadSetsListedWords : Obligations.ImageLoadSetsListedWords := fun image s hnodup =>
  ⟨fun _ hp => readWord_loadImage_of_mem hnodup s hp, fun _ ha => readWord_loadImage_of_not_mem s ha,
    loadImage_eq_mem_update image s⟩

/-! ## Object lines (R234). -/

/-- A digit reads back as its value. -/
theorem hexValue_hexDigit : ∀ d : BitVec 4, hexValue (hexDigit d) = some d := by decide

/-- The four digits of a word, joined, are the word. -/
theorem digits_append (w : Word) :
    (w.extractLsb' 12 4 ++ w.extractLsb' 8 4 ++ w.extractLsb' 4 4 ++ w.extractLsb' 0 4 : Word) = w := by
  have h : encodeRRR (fieldOp w) (fieldRt w) (fieldRs1 w) (fieldRs2 w) = w := by
    rw [← and_F000_iff_encodeRRR w rfl, and_F000_iff_fieldOp w rfl]
  exact h

theorem hexWord_wordDigits (w : Word) :
    hexWord (hexDigit (w.extractLsb' 12 4)) (hexDigit (w.extractLsb' 8 4)) (hexDigit (w.extractLsb' 4 4))
      (hexDigit (w.extractLsb' 0 4)) = some w := by
  simp only [hexWord, hexValue_hexDigit, digits_append]

theorem lineTail_replicate_append (n : Nat) {rest : List Char} (h : lineTail rest = true) :
    lineTail (List.replicate n ' ' ++ rest) = true := by
  induction n with
  | zero => exact h
  | succ n ih => simp [List.replicate_succ, lineTail, ih]

theorem lineTail_comment (comment : List Char) : lineTail (';' :: comment) = true := by
  simp [lineTail]

/-- The nine characters of a line parse to what they were written for, before any tail that may follow. -/
theorem parseObjectLine_objectLine (address word : Word) {tail : List Char} (h : lineTail tail = true) :
    parseObjectLine (objectLine address word ++ tail) = some (address, word) := by
  simp [objectLine, wordDigits, wordDigits.fieldDigit, parseObjectLine, h, hexWord_wordDigits]

/-- Settles O6: each of the two tails is one that may follow the nine characters. -/
theorem objectLineRoundTrip : Obligations.ObjectLineRoundTrip := by
  intro address word blanks comment
  refine ⟨rfl, parseObjectLine_objectLine address word ?_, ?_⟩
  · simpa using lineTail_replicate_append blanks (rest := []) rfl
  · rw [List.append_assoc]
    exact parseObjectLine_objectLine address word (lineTail_replicate_append blanks (lineTail_comment comment))

end Sys2Proof.Machine

/-!
PROOFS of the family 'other', what each meaning changes: the lists of spec/10_state.md and spec/20_memory.md (who writes which
flag, SP, PC, memory and the run state), read off the form of each meaning once.
-/

namespace Sys2Proof.Machine

/-! ## The frame of a meaning. -/

/-- SP after an instruction (spec/10_state.md R28). -/
def spAfter (i : Instr) (s : State) : Word :=
  match i with
  | .ldsp rs1 => s.reg rs1
  | .push _ | .jsrr _ | .jsr _ | .jsrd _ => s.sp - 1
  | .pop _ | .rts => s.sp + 1
  | _ => s.sp

/-- What the lists of Safety.lean say of a meaning that takes `s` to `t`. -/
structure ExecFrame (i : Instr) (s t : State) : Prop where
  sets_halted : i = .halt → t.halted = true
  keeps_halted : i ≠ .halt → t.halted = s.halted
  sp_eq : t.sp = spAfter i s
  keeps_pc : transfersControl i = false → t.pc = s.pc
  mem_eq : (dataWriteAddress i s = none ∧ t.mem = s.mem) ∨
    ∃ a v, dataWriteAddress i s = some a ∧ t.mem = s.mem.writeWord a v
  keeps_nz : writesNZFlags i = false → t.flags.n = s.flags.n ∧ t.flags.z = s.flags.z
  keeps_cv : writesCVFlags i = false → t.flags.c = s.flags.c ∧ t.flags.v = s.flags.v
  sign : ∀ r, writesNZFlags i = true → regWritten i = some r → SignFlagsOf (t.reg r) t.flags

theorem signFlagsOf_result (r : Word) (c v : Bool) : SignFlagsOf r ⟨negativeFlag r, zeroFlag r, c, v⟩ :=
  ⟨negativeFlag_eq r, zeroFlag_eq r⟩

theorem signFlagsOf_setNZCV (s : State) (rt : Reg) (r : Word) (c v : Bool) :
    SignFlagsOf (((s.setReg rt r).setNZCV r c v).reg rt) ((s.setReg rt r).setNZCV r c v).flags := by
  rw [reg_setNZCV, reg_setReg_same]
  exact signFlagsOf_result r c v

theorem signFlagsOf_setNZ (s : State) (rt : Reg) (r : Word) :
    SignFlagsOf (((s.setReg rt r).setNZ r).reg rt) ((s.setReg rt r).setNZ r).flags :=
  signFlagsOf_setNZCV s rt r s.flags.c s.flags.v

/-- Each meaning completes with its frame, by its form; the components stand in the order of the fields. -/
theorem exec_frame (i : Instr) (s : State) : ∃ t, exec i s = .next t ∧ ExecFrame i s t := by
  cases i with
  | add rt | sub rt | addi rt | subi rt =>
    exact ⟨_, rfl, nofun, fun _ => rfl, rfl, fun _ => rfl, .inl ⟨rfl, rfl⟩, nofun, nofun,
      fun | _, _, rfl => signFlagsOf_setNZCV s rt _ _ _⟩
  | and rt | or rt | xor rt | sl0 rt | sl1 rt | sr0 rt | sr1 rt | not rt =>
    exact ⟨_, rfl, nofun, fun _ => rfl, rfl, fun _ => rfl, .inl ⟨rfl, rfl⟩, nofun, fun _ => ⟨rfl, rfl⟩,
      fun | _, _, rfl => signFlagsOf_setNZ s rt _⟩
  | ldl | ldh | ld | ldsp | pop | nop =>
    exact ⟨_, rfl, nofun, fun _ => rfl, rfl, fun _ => rfl, .inl ⟨rfl, rfl⟩, fun _ => ⟨rfl, rfl⟩, fun _ => ⟨rfl, rfl⟩,
      nofun⟩
  | halt =>
    exact ⟨_, rfl, fun _ => rfl, fun h => absurd rfl h, rfl, fun _ => rfl, .inl ⟨rfl, rfl⟩, fun _ => ⟨rfl, rfl⟩,
      fun _ => ⟨rfl, rfl⟩, nofun⟩
  | st | push =>
    exact ⟨_, rfl, nofun, fun _ => rfl, rfl, fun _ => rfl, .inr ⟨_, _, rfl, rfl⟩, fun _ => ⟨rfl, rfl⟩,
      fun _ => ⟨rfl, rfl⟩, nofun⟩
  | jsrr | jsr | jsrd =>
    exact ⟨_, callTo_eq _ s, nofun, fun _ => rfl, rfl, nofun, .inr ⟨_, _, rfl, rfl⟩, fun _ => ⟨rfl, rfl⟩,
      fun _ => ⟨rfl, rfl⟩, nofun⟩
  | rts =>
    exact ⟨_, rfl, nofun, fun _ => rfl, rfl, nofun, .inl ⟨rfl, rfl⟩, fun _ => ⟨rfl, rfl⟩, fun _ => ⟨rfl, rfl⟩, nofun⟩
  | jmpr | jmpnr | jmpzr | jmpcr | jmpvr | jmp | jmpn | jmpz | jmpc | jmpv =>
    exact ⟨_, jumpWhen_eq _ _ s, nofun, fun _ => rfl, rfl, nofun, .inl ⟨rfl, rfl⟩, fun _ => ⟨rfl, rfl⟩,
      fun _ => ⟨rfl, rfl⟩, nofun⟩
  | jmpd | jmpnd | jmpzd | jmpcd | jmpvd =>
    exact ⟨_, jumpWhen_eq _ _ s, nofun, fun _ => rfl, rfl, nofun, .inl ⟨rfl, rfl⟩, fun _ => ⟨rfl, rfl⟩,
      fun _ => ⟨rfl, rfl⟩, nofun⟩

/-- The frame of a meaning that completes. -/
theorem frame_of_exec {i : Instr} {s t : State} (h : exec i s = .next t) : ExecFrame i s t := by
  obtain ⟨u, hu, hframe⟩ := exec_frame i s
  obtain rfl : u = t := Host.Outcome.next.inj (hu.symm.trans h)
  exact hframe

/-- Settles O15: every meaning completes, and HALT alone sets the run state. -/
theorem everyInstructionCompletes : Obligations.EveryInstructionCompletes := by
  intro i s
  obtain ⟨t, ht, hframe⟩ := exec_frame i s
  refine ⟨t, ht, ir_of_exec ht, ?_⟩
  by_cases hi : i = .halt
  · simp [hi, hframe.sets_halted hi]
  · simp [hi, hframe.keeps_halted hi]

/-- Settles O44, from the frame. -/
theorem flagsAreWrittenAsMarked : Obligations.FlagsAreWrittenAsMarked := by
  intro i s
  obtain ⟨t, ht, hframe⟩ := exec_frame i s
  exact ⟨t, ht, hframe.keeps_nz, hframe.keeps_cv, hframe.sign⟩

/-- Settles O45: memory is as before, or one word was stored at the listed address. -/
theorem memoryIsWrittenAsListed : Obligations.MemoryIsWrittenAsListed := by
  intro i s
  obtain ⟨t, ht, hframe⟩ := exec_frame i s
  refine ⟨t, ht, fun a ha k hlow hhigh => ?_, fun hnone k => ?_⟩
  · rcases hframe.mem_eq with ⟨hnone, -⟩ | ⟨b, v, hb, hmem⟩
    · cases ha.symm.trans hnone
    · obtain rfl : a = b := Option.some.inj (ha.symm.trans hb)
      rw [hmem, readByte_writeWord_other s.mem a v k hlow hhigh]
  · rcases hframe.mem_eq with ⟨-, hmem⟩ | ⟨b, v, hb, -⟩
    · rw [hmem]
    · cases hnone.symm.trans hb

/-- SP of an instruction that is neither LDSP nor one that pushes or pops. -/
theorem spAfter_of_not_mem {i : Instr} {s : State}
    (h : ∀ r d, i ∉ [Instr.ldsp r, .push r, .pop r, .rts, .jsrr r, .jsr r, .jsrd d]) : spAfter i s = s.sp := by
  cases i with
  | ldsp r | push r | pop r | jsrr r | jsr r => exact absurd (h r 0) (by simp)
  | rts => exact absurd (h 0 0) (by simp)
  | jsrd d => exact absurd (h 0 d) (by simp)
  | _ => rfl

/-- Settles O48: SP after an instruction, held against each of the four cases. -/
theorem stackPointerChangesAsListed : Obligations.StackPointerChangesAsListed := by
  intro i s
  obtain ⟨t, ht, hframe⟩ := exec_frame i s
  refine ⟨t, ht, fun rs1 hi => ?_, fun ⟨r, d, hi⟩ => ?_, fun ⟨r, hi⟩ => ?_, fun hi => ?_⟩
  · rw [hframe.sp_eq, hi]; rfl
  · have hsp : spAfter i s = s.sp - 1 := by
      simp only [List.mem_cons, List.not_mem_nil, or_false] at hi
      obtain rfl | rfl | rfl | rfl := hi <;> rfl
    rw [hframe.sp_eq, hsp, toNat_sub_one]
  · have hsp : spAfter i s = s.sp + 1 := by
      simp only [List.mem_cons, List.not_mem_nil, or_false] at hi
      obtain rfl | rfl := hi <;> rfl
    rw [hframe.sp_eq, hsp, BitVec.toNat_add]; rfl
  · rw [hframe.sp_eq, spAfter_of_not_mem hi]

/-! ## Reads of memory (spec/20_memory.md R41). -/

/-- Both outcomes complete, and all but memory ends equal. -/
def AgreeButMemory (o o' : Host.Outcome State Fault Refusal) : Prop :=
  ∃ t t', o = .next t ∧ o' = .next t' ∧ t' = { t with mem := t'.mem }

/-- Each meaning, by its form: the three that read data read one word, at the listed address. -/
theorem exec_agreeButMemory (i : Instr) (s : State) (m : Memory)
    (hread : ∀ a, dataReadAddress i s = some a → m.readWord a = s.mem.readWord a) :
    AgreeButMemory (exec i s) (exec i { s with mem := m }) := by
  cases i with
  | add | sub | addi | subi => exact ⟨_, _, rfl, rfl, rfl⟩
  | and | or | xor | sl0 | sl1 | sr0 | sr1 | not => exact ⟨_, _, rfl, rfl, rfl⟩
  | ldl | ldh | ldsp | nop | halt => exact ⟨_, _, rfl, rfl, rfl⟩
  | st | push => exact ⟨_, _, rfl, rfl, rfl⟩
  | jsrr | jsr | jsrd => exact ⟨_, _, callTo_eq _ s, callTo_eq _ _, rfl⟩
  | jmpr | jmpnr | jmpzr | jmpcr | jmpvr | jmp | jmpn | jmpz | jmpc | jmpv =>
    exact ⟨_, _, jumpWhen_eq _ _ s, jumpWhen_eq _ _ _, rfl⟩
  | jmpd | jmpnd | jmpzd | jmpcd | jmpvd => exact ⟨_, _, jumpWhen_eq _ _ s, jumpWhen_eq _ _ _, rfl⟩
  | ld rt rs1 rs2 =>
    refine ⟨_, ({ s with mem := m } : State).setReg rt (s.mem.readWord (effectiveAddress s rs1 rs2)), rfl, ?_, rfl⟩
    rw [exec_ld, ← hread (effectiveAddress s rs1 rs2) rfl]; rfl
  | pop rt =>
    refine ⟨_, (({ s with mem := m } : State).setSp (s.sp + 1)).setReg rt (s.mem.readWord (s.sp + 1)), rfl, ?_, rfl⟩
    rw [exec_pop, ← hread (s.sp + 1) rfl]
  | rts =>
    refine ⟨_, { s with mem := m, pc := s.mem.readWord (s.sp + 1), sp := s.sp + 1 }, rfl, ?_, rfl⟩
    rw [exec_rts, ← hread (s.sp + 1) rfl]

/-- Settles O46, by the form of each meaning. -/
theorem memoryIsReadAsListed : Obligations.MemoryIsReadAsListed := by
  intro i s s' hs hread
  obtain ⟨m, rfl⟩ : ∃ m, s' = { s with mem := m } := ⟨_, hs⟩
  exact exec_agreeButMemory i s m hread

end Sys2Proof.Machine

/-!
PROOFS of the family 'other', steps and runs: what a step can do, the invariant, and the statements about runs, each by
induction over their length.
-/

namespace Sys2Proof.Machine

/-! ## One step. -/

/-- The state a fetch leaves (spec/00_scope.md R11). -/
def fetched (s : State) : State := { s with ir := s.mem.readWord s.pc, pc := s.pc + 1 }

/-- A running step whose word decodes is the meaning of the instruction, and completes with its frame. -/
theorem step_frame {s : State} {i : Instr} (hrun : s.halted = false) (hd : decode (s.mem.readWord s.pc) = .ok i) :
    ∃ t, step s = .next t ∧ exec i (fetched s) = .next t ∧ ExecFrame i (fetched s) t := by
  obtain ⟨t, ht, hframe⟩ := exec_frame i (fetched s)
  exact ⟨t, (step_decoded s i hrun hd).trans ht, ht, hframe⟩

/-- What a step can do: stay halted, perform the instruction fetched, or stop at an unassigned word. -/
theorem step_cases (s : State) :
    (s.halted = true ∧ step s = .next s) ∨
    (s.halted = false ∧ ∃ i t, decode (s.mem.readWord s.pc) = .ok i ∧ step s = .next t ∧ exec i (fetched s) = .next t) ∨
    (s.halted = false ∧ assignedWord (s.mem.readWord s.pc) = false ∧
      step s = .fault (.illegalInstruction (s.mem.readWord s.pc))) := by
  cases hrun : s.halted with
  | true => exact .inl ⟨rfl, step_halted s hrun⟩
  | false =>
    cases hd : decode (s.mem.readWord s.pc) with
    | ok i =>
      obtain ⟨t, hstep, hexec, -⟩ := step_frame hrun hd
      exact .inr (.inl ⟨rfl, i, t, rfl, hstep, hexec⟩)
    | error e => exact .inr (.inr ⟨rfl, not_assigned_of_decode_error hd, step_unassigned s e hrun hd⟩)

/-- Settles O10: the two equations of a step. -/
theorem stepRunsTheDecodedInstruction : Obligations.StepRunsTheDecodedInstruction := fun s =>
  ⟨fun i hrun hd => step_decoded s i hrun hd, step_halted s⟩

/-- Settles O13: an unassigned word does not decode. -/
theorem unassignedWordFaults : Obligations.UnassignedWordFaults := by
  intro s hrun hword
  obtain ⟨e, hd⟩ := decode_error_of_not_assigned hword
  exact step_unassigned s e hrun hd

/-- Settles O47: the fetch moves PC by one, and the meaning leaves it. -/
theorem programCounterChangesAsListed : Obligations.ProgramCounterChangesAsListed := by
  intro s i hrun hd htransfer
  obtain ⟨t, hstep, -, hframe⟩ := step_frame hrun hd
  have hpc : t.pc = s.pc + 1 := hframe.keeps_pc htransfer
  exact ⟨t, hstep, by rw [hpc, BitVec.toNat_add]; rfl⟩

/-! ## The invariant. -/

/-- Settles O12: nothing is listed, and the machine runs. -/
theorem resetHasInvariant : Obligations.ResetHasInvariant :=
  ⟨wf_reset, nofun⟩

/-- A meaning keeps the canonical form of memory: it stores one word or none. -/
theorem wf_mem_of_exec {i : Instr} {s t : State} (h : exec i s = .next t) (hwf : s.mem.wf) : t.mem.wf := by
  rcases (frame_of_exec h).mem_eq with ⟨-, hmem⟩ | ⟨a, v, -, hmem⟩
  · exact hmem ▸ hwf
  · exact hmem ▸ wf_writeWord s.mem a v hwf

/-- Settles O11: memory by the frame; a running machine halts by HALT only, which its fetch has put in IR. -/
theorem stepKeepsInvariant : Obligations.StepKeepsInvariant := by
  intro s t ⟨hwf, hhalt⟩ hstep
  rcases step_cases s with ⟨-, hs⟩ | ⟨hrun, i, u, hd, hs, hexec⟩ | ⟨-, -, hs⟩
  · obtain rfl : s = t := Host.Outcome.next.inj (hs.symm.trans hstep)
    exact ⟨hwf, hhalt⟩
  · obtain rfl : u = t := Host.Outcome.next.inj (hs.symm.trans hstep)
    refine ⟨wf_mem_of_exec hexec hwf, fun hhalted => ?_⟩
    by_cases hi : i = .halt
    · rw [ir_of_step hrun hstep, hd, hi]
    · have hkept : u.halted = false := ((frame_of_exec hexec).keeps_halted hi).trans hrun
      cases hkept.symm.trans hhalted
  · cases hs.symm.trans hstep

/-! ## Runs. -/

/-- Settles O14: by induction over the steps, the first of which completes or stops at an unassigned word. -/
theorem onlyUnassignedWordsStop : Obligations.OnlyUnassignedWordsStop := by
  intro k
  induction k with
  | zero => exact fun s => .inl ⟨s, rfl⟩
  | succ k ih =>
    intro s
    rcases step_cases s with ⟨-, hs⟩ | ⟨-, i, t, -, hs, -⟩ | ⟨-, hword, hs⟩
    · rw [run_succ_next k hs]; exact ih s
    · rw [run_succ_next k hs]; exact ih t
    · exact .inr ⟨_, run_succ_fault k hs, hword⟩

theorem run_halted {s : State} (h : s.halted = true) (k : Nat) : run k s = .next s := by
  induction k with
  | zero => rfl
  | succ k ih => rw [run_succ_next k (step_halted s h), ih]

/-- Settles O16, by induction over the length of the run. -/
theorem haltedMachineRunsWithoutFault : Obligations.HaltedMachineRunsWithoutFault := fun s h =>
  ⟨run_halted h, fun k => ⟨s, run_halted h k⟩, fun _ => ⟨rfl, rfl⟩⟩

/-- Settles O17: the store leaves the word where the next step fetches. -/
theorem nextFetchSeesTheStore : Obligations.NextFetchSeesTheStore := by
  intro rt rs1 rs2 s i hrun haddress hd
  let t : State := { s with mem := s.mem.writeWord s.pc (s.reg rt) }
  have hexec : exec (.st rt rs1 rs2) s = .next t := by rw [exec_st, haddress]
  have hword : t.mem.readWord t.pc = s.reg rt := readWord_writeWord_same s.mem s.pc (s.reg rt)
  refine ⟨t, hexec, ?_⟩
  rw [step_decoded t i hrun (hword ▸ hd), hword]

/-- The word D3FF is JMPD with the displacement -1, which undoes the step of the fetch. -/
theorem step_branch_to_self {s : State} (hrun : s.halted = false) (hword : s.mem.readWord s.pc = 0xD3FF) :
    step s = .next { s with ir := 0xD3FF } := by
  have hd : decode (s.mem.readWord s.pc) = .ok (.jmpd 0x3FF) := by rw [hword]; decide
  have htarget : s.pc + 1 + sextDisp10 0x3FF = s.pc := by
    rw [show sextDisp10 0x3FF = -1 by decide]; bv_omega
  rw [step_decoded s _ hrun hd, exec_jmpd, hword]
  simp only [relativeTarget, htarget]

/-- Settles O37, by induction over the length of the run: each step finds PC and the word there as before. -/
theorem branchToSelfNeverEnds : Obligations.BranchToSelfNeverEnds := by
  intro s k
  induction k generalizing s with
  | zero =>
    intro hrun hword
    rw [run_succ_next 0 (step_branch_to_self hrun hword), run_zero]
  | succ k ih =>
    intro hrun hword
    rw [run_succ_next _ (step_branch_to_self hrun hword)]
    exact ih { s with ir := 0xD3FF } hrun hword

/-! ## Cycles (spec/70_reset_and_hazards.md R250, R251). -/

theorem jumpCycles_bounds (taken : Bool) : 2 ≤ jumpCycles taken ∧ jumpCycles taken ≤ 4 := by
  cases taken <;> decide

theorem cyclesOf_bounds (i : Instr) (f : Flags) : 2 ≤ cyclesOf i f ∧ cyclesOf i f ≤ 4 := by
  cases i with
  | jmpnr | jmpn | jmpnd | jmpzr | jmpz | jmpzd => exact jumpCycles_bounds _
  | jmpcr | jmpc | jmpcd | jmpvr | jmpv | jmpvd => exact jumpCycles_bounds _
  | _ => simp [cyclesOf]

theorem stepCycles_eq {s : State} {i : Instr} (hrun : s.halted = false) (hd : decode (s.mem.readWord s.pc) = .ok i) :
    stepCycles s = cyclesOf i s.flags := by
  simp [stepCycles, hrun, hd]

theorem runCycles_succ_next (k : Nat) {s t : State} (h : step s = .next t) :
    runCycles (k + 1) s = stepCycles s + runCycles k t := by
  simp only [runCycles, h]

/-- Settles O55, by induction over the length of the run. -/
theorem averageCyclesBetweenTwoAndFour : Obligations.AverageCyclesBetweenTwoAndFour := by
  intro k
  induction k with
  | zero => exact fun _ _ _ _ => ⟨Nat.le_refl 0, Nat.le_refl 0⟩
  | succ k ih =>
    intro s t hcompletes hrunning
    have hrun : s.halted = false := hrunning 0 k.succ_pos s rfl
    rcases step_cases s with ⟨hhalted, -⟩ | ⟨-, i, u, hd, hs, -⟩ | ⟨-, -, hs⟩
    · cases hrun.symm.trans hhalted
    · rw [run_succ_next k hs] at hcompletes
      have hrest := ih u t hcompletes fun j hj v hv =>
        hrunning (j + 1) (Nat.succ_lt_succ hj) v ((run_succ_next j hs).trans hv)
      have hfirst := cyclesOf_bounds i s.flags
      rw [runCycles_succ_next k hs, stepCycles_eq hrun hd]
      omega
    · cases (run_succ_fault k hs).symm.trans hcompletes

/-- Settles O54: the rows of the table, and each conditional jump by the flag it tests. -/
theorem cycleCountsOfTheTable : Obligations.CycleCountsOfTheTable := by
  intro a b c k d e f
  have hjump : ∀ taken : Bool, (taken = false → jumpCycles taken = 3) ∧ (taken = true → jumpCycles taken = 4) := by decide
  refine ⟨by simp [cyclesOf], rfl, rfl, fun p hp => ?_⟩
  simp only [List.mem_cons, List.not_mem_nil, or_false] at hp
  obtain rfl | rfl | rfl | rfl | rfl | rfl | rfl | rfl | rfl | rfl | rfl | rfl := hp
  all_goals exact hjump _

/-! ## Reset (spec/70_reset_and_hazards.md R230). -/

theorem reg_processorReset (d : ResetDraw) (s : State) (r : Reg) : (processorReset d s).reg r = 0 := by
  simp [processorReset, State.reg, Config.resetGpr]

/-- Settles O52: the bank by a lemma of its own, the rest as the event is written. -/
theorem resetEventClearsBankKeepsMemory : Obligations.ResetEventClearsBankKeepsMemory := fun d s =>
  ⟨reg_processorReset d s, rfl, rfl, rfl, fun _ => rfl⟩

/-- Settles O53: the two records agree field by field, and an empty list reads as the unwritten byte everywhere. -/
theorem resetStateHoldsTheLoggedChoices : Obligations.ResetStateHoldsTheLoggedChoices := by
  intro s hmem
  have hblank : (Config.unwrittenByte ++ Config.unwrittenByte : Word) = 0 := by decide
  refine ⟨?_, fun _ => hblank⟩
  rw [processorReset, hmem]; rfl

end Sys2Proof.Machine

/-!
PROOFS of the family 'other', the effects of the instructions: one lemma for each shared form of a meaning (a sum, a difference,
a logic result, a loaded register, a store, a jump, a call), and the statements about the instructions from those.
-/

namespace Sys2Proof.Machine

/-! ## Arithmetic, logic and shifts (spec/40_arith_logic.md). -/

section
variable (rt : Reg) (a b r : Word) (s : State)

theorem writeSum_effect : ∃ t, writeSum rt a b s = .next t ∧ SumWritten rt a b s t := by
  refine ⟨_, rfl, ?_, signFlagsOf_setNZCV s rt _ _ _, rfl, addOverflow_eq a b, fun q hq => ?_, ⟨rfl, rfl, rfl, rfl⟩,
    fun _ => rfl⟩
  · rw [reg_setNZCV, reg_setReg_same, BitVec.toNat_add]
  · rw [reg_setNZCV, reg_setReg_other _ _ _ _ hq]

theorem toNat_sub_eq_emod : ((a - b).toNat : Int) = ((a.toNat : Int) - b.toNat) % 65536 := by
  have ha := a.isLt
  have hb := b.isLt
  rw [BitVec.toNat_sub]
  omega

theorem writeDifference_effect : ∃ t, writeDifference rt a b s = .next t ∧ DifferenceWritten rt a b s t := by
  refine ⟨_, rfl, ?_, signFlagsOf_setNZCV s rt _ _ _, ?_, subOverflow_eq a b, fun q hq => ?_, ⟨rfl, rfl, rfl, rfl⟩,
    fun _ => rfl⟩
  · rw [reg_setNZCV, reg_setReg_same, toNat_sub_eq_emod]
  · rw [flags_setNZCV]
    show subCarryUnder Config.subCarry a b = _
    cases Config.subCarry <;> rfl
  · rw [reg_setNZCV, reg_setReg_other _ _ _ _ hq]

theorem writeLogic_effect : ∃ t, writeLogic rt r s = .next t ∧ LogicFrame rt s t ∧ t.reg rt = r := by
  refine ⟨_, rfl, ⟨signFlagsOf_setNZ s rt r, rfl, rfl, fun q hq => ?_, ⟨rfl, rfl, rfl, rfl⟩, fun _ => rfl⟩, ?_⟩
  · rw [reg_setNZ, reg_setReg_other _ _ _ _ hq]
  · rw [reg_setNZ, reg_setReg_same]

end

/-- Settles O18: both have the form of a sum. -/
theorem additionWritesSumAndFlags : Obligations.AdditionWritesSumAndFlags := by
  refine ⟨fun rt rs1 rs2 s => writeSum_effect rt (s.reg rs1) (s.reg rs2) s, fun rt c s => ?_⟩
  rw [← zextImm8_eq]
  exact writeSum_effect rt (s.reg rt) (zextImm8 c) s

/-- Settles O19: both have the form of a difference. -/
theorem subtractionWritesDifferenceAndFlags : Obligations.SubtractionWritesDifferenceAndFlags := by
  refine ⟨fun rt rs1 rs2 s => writeDifference_effect rt (s.reg rs1) (s.reg rs2) s, fun rt c s => ?_⟩
  rw [← zextImm8_eq]
  exact writeDifference_effect rt (s.reg rt) (zextImm8 c) s

/-- Settles O20: each has the form of a logic result, whose bits are those of the operation on words. -/
theorem bitwiseLogicWritesEachBit : Obligations.BitwiseLogicWritesEachBit := by
  intro rt rs1 rs2 s
  refine ⟨?_, ?_, ?_, ?_⟩
  · obtain ⟨t, ht, hframe, hreg⟩ := writeLogic_effect rt (s.reg rs1 &&& s.reg rs2) s
    exact ⟨t, ht, hframe, fun k _ => by rw [hreg, BitVec.getLsbD_and]⟩
  · obtain ⟨t, ht, hframe, hreg⟩ := writeLogic_effect rt (s.reg rs1 ||| s.reg rs2) s
    exact ⟨t, ht, hframe, fun k _ => by rw [hreg, BitVec.getLsbD_or]⟩
  · obtain ⟨t, ht, hframe, hreg⟩ := writeLogic_effect rt (s.reg rs1 ^^^ s.reg rs2) s
    exact ⟨t, ht, hframe, fun k _ => by rw [hreg, BitVec.getLsbD_xor, Bool.bne_eq_xor]⟩
  · obtain ⟨t, ht, hframe, hreg⟩ := writeLogic_effect rt (~~~ s.reg rs1) s
    exact ⟨t, ht, hframe, fun k hk => by rw [hreg, BitVec.getLsbD_not, decide_eq_true hk, Bool.true_and]⟩

/-- Settles O21: each has the form of a logic result, whose number the shift doubles or halves. -/
theorem shiftsMoveOneBit : Obligations.ShiftsMoveOneBit := by
  intro rt rs1 s
  refine ⟨?_, ?_, ?_, ?_⟩
  · obtain ⟨t, ht, hframe, hreg⟩ := writeLogic_effect rt (shiftLeftOne (s.reg rs1) 0) s
    exact ⟨t, ht, hframe, by rw [hreg, toNat_shiftLeftOne]; rfl⟩
  · obtain ⟨t, ht, hframe, hreg⟩ := writeLogic_effect rt (shiftLeftOne (s.reg rs1) 1) s
    exact ⟨t, ht, hframe, by rw [hreg, toNat_shiftLeftOne]; rfl⟩
  · obtain ⟨t, ht, hframe, hreg⟩ := writeLogic_effect rt (shiftRightOne 0 (s.reg rs1)) s
    exact ⟨t, ht, hframe, by rw [hreg, toNat_shiftRightOne]; rfl⟩
  · obtain ⟨t, ht, hframe, hreg⟩ := writeLogic_effect rt (shiftRightOne 1 (s.reg rs1)) s
    exact ⟨t, ht, hframe, by rw [hreg, toNat_shiftRightOne]; rfl⟩

/-- Settles O22: the three operations on equal operands. -/
theorem registerTestIdioms : Obligations.RegisterTestIdioms := by
  intro rt rs s
  have hcopy : ∀ r, r = s.reg rs → ∃ t, writeLogic rt r s = .next t ∧ t.reg rt = s.reg rs ∧
      SignFlagsOf (s.reg rs) t.flags := fun r hr => by
    obtain ⟨t, ht, ⟨hsign, -⟩, hreg⟩ := writeLogic_effect rt r s
    exact ⟨t, ht, hreg.trans hr, hreg.trans hr ▸ hsign⟩
  refine ⟨?_, hcopy _ BitVec.and_self, hcopy _ BitVec.or_self⟩
  rw [exec_xor, BitVec.xor_self]
  exact ⟨_, rfl, reg_setReg_same s rt 0, rfl⟩

/-! ## Loads of a register (spec/41_const_load.md, spec/42_load_store.md). -/

theorem setReg_loadFrame (rt : Reg) (v : Word) (s : State) : LoadFrame rt s (s.setReg rt v) :=
  ⟨rfl, fun q hq => reg_setReg_other s rt q v hq, ⟨rfl, rfl, rfl, rfl⟩, fun _ => rfl⟩

theorem setReg_setReg (s : State) (rt : Reg) (v w : Word) : (s.setReg rt v).setReg rt w = s.setReg rt w := by
  simp [State.setReg]

section
variable (v : Word) (c d : Byte)

theorem low_replaceLow : (replaceLow v c).extractLsb' 0 8 = c := by
  apply BitVec.eq_of_toNat_eq
  rw [BitVec.extractLsb'_toNat, toNat_replaceLow, Nat.shiftRight_zero]
  have := c.isLt; omega

theorem high_replaceLow : (replaceLow v c).extractLsb' 8 8 = v.extractLsb' 8 8 := by
  apply BitVec.eq_of_toNat_eq
  rw [BitVec.extractLsb'_toNat, BitVec.extractLsb'_toNat, toNat_replaceLow, Nat.shiftRight_eq_div_pow,
    Nat.shiftRight_eq_div_pow]
  have := c.isLt; omega

theorem low_replaceHigh : (replaceHigh v c).extractLsb' 0 8 = v.extractLsb' 0 8 := by
  apply BitVec.eq_of_toNat_eq
  rw [BitVec.extractLsb'_toNat, BitVec.extractLsb'_toNat, toNat_replaceHigh, Nat.shiftRight_zero, Nat.shiftRight_zero]
  omega

theorem high_replaceHigh : (replaceHigh v c).extractLsb' 8 8 = c := by
  apply BitVec.eq_of_toNat_eq
  rw [BitVec.extractLsb'_toNat, toNat_replaceHigh, Nat.shiftRight_eq_div_pow]
  have := c.isLt; omega

/-- With both halves replaced, nothing of the old word is left. -/
theorem replaceHigh_replaceLow : replaceHigh (replaceLow v c) d = d ++ c := by
  rw [replaceHigh, low_replaceLow]

theorem replaceLow_replaceHigh : replaceLow (replaceHigh v d) c = d ++ c := by
  rw [replaceLow, high_replaceHigh]

end

/-- Settles O23: the fields by the decoder, the two halves of the register by the replacement. -/
theorem ldlReplacesTheLowByte : Obligations.LdlReplacesTheLowByte := by
  refine ⟨fun w hop => decode_of_standsIn ⟨hop, rfl, rfl⟩, fun rt c s => ⟨_, exec_ldl rt c s, ?_⟩⟩
  rw [reg_setReg_same, low_replaceLow, high_replaceLow]
  exact ⟨rfl, rfl, setReg_loadFrame rt _ s⟩

/-- Settles O24: the fields by the decoder, the two halves of the register by the replacement. -/
theorem ldhReplacesTheHighByte : Obligations.LdhReplacesTheHighByte := by
  refine ⟨fun w hop => decode_of_standsIn ⟨hop, rfl, rfl⟩, fun rt c s => ⟨_, exec_ldh rt c s, ?_⟩⟩
  rw [reg_setReg_same, low_replaceHigh, high_replaceHigh]
  exact ⟨rfl, rfl, setReg_loadFrame rt _ s⟩

/-- Settles O25: in either order the register takes both halves from the constants. -/
theorem constantPairInEitherOrder : Obligations.ConstantPairInEitherOrder := by
  intro rt hi lo s
  refine ⟨s.setReg rt (hi ++ lo), ?_, ?_, ?_, setReg_loadFrame rt _ s⟩
  · rw [execAll_cons_next _ (exec_ldl rt lo s), execAll_cons_next _ (exec_ldh rt hi _), execAll_nil, reg_setReg_same,
      setReg_setReg, replaceHigh_replaceLow]
  · rw [execAll_cons_next _ (exec_ldh rt hi s), execAll_cons_next _ (exec_ldl rt lo _), execAll_nil, reg_setReg_same,
      setReg_setReg, replaceLow_replaceHigh]
  · have happend : (hi ++ lo : Word).toNat = hi.toNat * 2 ^ 8 + lo.toNat := toNat_append_mul (w := 8) (v := 8) hi lo
    rw [reg_setReg_same, happend]; omega

theorem toNat_effectiveAddress (s : State) (rs1 rs2 : Reg) :
    (effectiveAddress s rs1 rs2).toNat = ((s.reg rs1).toNat + (s.reg rs2).toNat) % 65536 :=
  BitVec.toNat_add _ _

/-- Settles O26: the address is the one word with that number. -/
theorem ldReadsTheAddressedWord : Obligations.LdReadsTheAddressedWord := by
  intro rt rs1 rs2 s
  refine ⟨_, exec_ld rt rs1 rs2 s, fun a ha => ?_, setReg_loadFrame rt _ s⟩
  obtain rfl : a = effectiveAddress s rs1 rs2 :=
    BitVec.eq_of_toNat_eq (ha.trans (toNat_effectiveAddress s rs1 rs2).symm)
  rw [reg_setReg_same]

/-! ## Stores. -/

theorem storesWord_of_mem_eq {s t : State} {a v : Word} (h : t.mem = s.mem.writeWord a v) : StoresWord a v s t :=
  ⟨h ▸ readWord_writeWord_same s.mem a v, fun k hlow hhigh => h ▸ readByte_writeWord_other s.mem a v k hlow hhigh⟩

/-- Settles O27: nothing but memory changes. -/
theorem stWritesTheAddressedWord : Obligations.StWritesTheAddressedWord := fun rt rs1 rs2 s =>
  ⟨toNat_effectiveAddress s rs1 rs2, _, exec_st rt rs1 rs2 s, storesWord_of_mem_eq rfl, fun _ => rfl, rfl, rfl, rfl, rfl,
    rfl⟩

/-- Settles O28: the store leaves the registers, so LD forms the address the store used. -/
theorem loadAfterStoreReturnsTheWord : Obligations.LoadAfterStoreReturnsTheWord := by
  intro rt rs1 rs2 rd a b s haddress
  rw [execAll_cons_next _ (exec_st rt rs1 rs2 s), execAll_cons_next _ (exec_ld rd a b _), execAll_nil]
  refine ⟨_, rfl, ?_⟩
  rw [reg_setReg_same, ← haddress]
  exact readWord_writeWord_same s.mem (effectiveAddress s a b) (s.reg rt)

/-! ## The stack (spec/43_stack.md). -/

/-- The word of format RS whose rt field is shown as 0. -/
theorem toNat_encodeRS_zero_rt (op sub : BitVec 4) (rs1 : Reg) :
    (encodeRS op 0 rs1 sub).toNat = 4096 * op.toNat + sub.toNat + 16 * rs1.toNat := by
  rw [toNat_encodeRS, BitVec.ofNat_eq_ofNat, BitVec.toNat_ofNat, Nat.zero_mod]
  omega

/-- Settles O29: the fields by the decoder, the number of the word by its format. -/
theorem ldspLoadsTheStackPointer : Obligations.LdspLoadsTheStackPointer := by
  refine ⟨fun w hop hsub => decode_of_standsIn ⟨hop, hsub, rfl⟩, fun rs1 => ?_, fun rs1 s => ?_⟩
  · exact toNat_encodeRS_zero_rt 0xB 0x7 rs1
  · exact ⟨_, exec_ldsp rs1 s, rfl, fun _ => rfl, rfl, rfl, rfl, rfl, fun _ => rfl⟩

/-- Settles O30: memory and SP are all that changes. -/
theorem pushStoresAtTheOldStackPointer : Obligations.PushStoresAtTheOldStackPointer := fun rt s =>
  ⟨_, exec_push rt s, storesWord_of_mem_eq rfl, toNat_sub_one s.sp, fun _ => rfl, rfl, rfl, rfl, rfl⟩

/-- Settles O31: the target and SP are all that changes. -/
theorem popLoadsTheWordAboveStackPointer : Obligations.PopLoadsTheWordAboveStackPointer := by
  intro rt s
  refine ⟨_, exec_pop rt s, reg_setReg_same _ rt _, BitVec.toNat_add _ _, fun q hq => ?_, rfl, rfl, rfl, rfl, fun _ => rfl⟩
  rw [reg_setReg_other _ _ _ _ hq, reg_setSp]

/-- What a list of pushes leaves: the words lie below the old SP in the order of the list, and all else is kept. -/
theorem execAll_push (rs : List Reg) (s : State) (hlen : rs.length ≤ 65536) :
    ∃ t, execAll (rs.map Instr.push) s = .next t ∧ t.sp = s.sp - BitVec.ofNat 16 rs.length ∧
      (∀ (j : Nat) (r : Reg), rs[j]? = some r → t.mem.readWord (s.sp - BitVec.ofNat 16 j) = s.reg r) ∧
      ∀ a : Word, (∀ j < rs.length, a ≠ s.sp - BitVec.ofNat 16 j) → t.mem.readWord a = s.mem.readWord a := by
  induction rs generalizing s with
  | nil => exact ⟨s, rfl, by simp, nofun, fun _ _ => rfl⟩
  | cons r rest ih =>
    rw [List.length_cons] at hlen ⊢
    let u : State := { s with mem := s.mem.writeWord s.sp (s.reg r), sp := s.sp - 1 }
    obtain ⟨t, ht, hsp, hwords, hothers⟩ := ih u (by omega)
    have hbelow : ∀ j, u.sp - BitVec.ofNat 16 j = s.sp - BitVec.ofNat 16 (j + 1) := fun j => by
      show s.sp - 1 - BitVec.ofNat 16 j = _
      bv_omega
    refine ⟨t, (execAll_cons_next _ (exec_push r s)).trans ht, hsp.trans (hbelow _), fun j q hq => ?_, fun a ha => ?_⟩
    · cases j with
      | zero =>
        obtain rfl : r = q := Option.some.inj hq
        have hfresh : ∀ j < rest.length, s.sp ≠ u.sp - BitVec.ofNat 16 j := fun j hj => by
          rw [hbelow]; bv_omega
        rw [show s.sp - BitVec.ofNat 16 0 = s.sp by simp, hothers s.sp hfresh]
        exact readWord_writeWord_same s.mem s.sp (s.reg r)
      | succ j =>
        rw [← hbelow]
        exact hwords j q hq
    · have htop : a ≠ s.sp := by simpa using ha 0 (Nat.succ_pos _)
      rw [hothers a fun j hj => hbelow j ▸ ha (j + 1) (Nat.succ_lt_succ hj)]
      exact readWord_writeWord_other s.mem s.sp a (s.reg r) htop

/-- Settles O33: the pushes from the state that LDSP leaves. -/
theorem pushedWordsLieBelowTheTop : Obligations.PushedWordsLieBelowTheTop := by
  intro rs1 rs s hlen
  rw [execAll_cons_next _ (exec_ldsp rs1 s)]
  exact execAll_push rs (s.setSp (s.reg rs1)) hlen

/-- What a list of pops leaves, when the words above SP are those a table of values gives for the registers. -/
theorem execAll_pop (value : Reg → Word) (qs : List Reg) (u : State)
    (hwords : ∀ (j : Nat) (q : Reg), qs[j]? = some q → u.mem.readWord (u.sp + 1 + BitVec.ofNat 16 j) = value q) :
    ∃ v, execAll (qs.map Instr.pop) u = .next v ∧ v.sp = u.sp + BitVec.ofNat 16 qs.length ∧
      (∀ r ∈ qs, v.reg r = value r) ∧ ∀ r, r ∉ qs → v.reg r = u.reg r := by
  induction qs generalizing u with
  | nil => exact ⟨u, rfl, by simp, nofun, fun _ _ => rfl⟩
  | cons q rest ih =>
    let w : State := (u.setSp (u.sp + 1)).setReg q (u.mem.readWord (u.sp + 1))
    have hq : w.reg q = value q := by
      rw [reg_setReg_same]
      simpa using hwords 0 q rfl
    have hrest : ∀ (j : Nat) (r : Reg), rest[j]? = some r → w.mem.readWord (w.sp + 1 + BitVec.ofNat 16 j) = value r := by
      intro j r hr
      have habove : w.sp + 1 + BitVec.ofNat 16 j = u.sp + 1 + BitVec.ofNat 16 (j + 1) := by
        show u.sp + 1 + 1 + BitVec.ofNat 16 j = _
        bv_omega
      rw [habove]
      exact hwords (j + 1) r hr
    obtain ⟨v, hv, hsp, hlisted, hothers⟩ := ih w hrest
    refine ⟨v, (execAll_cons_next _ (exec_pop q u)).trans hv, ?_, fun r hr => ?_, fun r hr => ?_⟩
    · rw [hsp, List.length_cons]
      show u.sp + 1 + _ = _
      bv_omega
    · by_cases hmem : r ∈ rest
      · exact hlisted r hmem
      · obtain rfl : r = q := (List.mem_cons.1 hr).resolve_right hmem
        rw [hothers r hmem, hq]
    · obtain ⟨hne, hmem⟩ : r ≠ q ∧ r ∉ rest := by simpa [not_or] using hr
      rw [hothers r hmem, reg_setReg_other _ _ _ _ hne, reg_setSp]

/-- Settles O32: the pops find above SP, in the reverse order, the words the pushes left. -/
theorem mirroredPopsRestorePushes : Obligations.MirroredPopsRestorePushes := by
  intro rs s hlen
  obtain ⟨t, ht, hsp, hwords, -⟩ := execAll_push rs s hlen
  refine ⟨t, ht, fun u husp humem => ?_⟩
  have hpopped : ∀ (j : Nat) (q : Reg), rs.reverse[j]? = some q →
      u.mem.readWord (u.sp + 1 + BitVec.ofNat 16 j) = s.reg q := by
    intro j q hq
    have hj : j < rs.length := by
      have := (List.getElem?_eq_some_iff.1 hq).1
      rwa [List.length_reverse] at this
    rw [List.getElem?_reverse hj] at hq
    have haddress : u.sp + 1 + BitVec.ofNat 16 j = s.sp - BitVec.ofNat 16 (rs.length - 1 - j) := by
      rw [husp, hsp]; bv_omega
    rw [haddress, humem _ (by omega), hwords _ q hq]
  obtain ⟨v, hv, hvsp, hlisted, hothers⟩ := execAll_pop s.reg rs.reverse u hpopped
  refine ⟨v, hv, ?_, fun r hr => hlisted r (List.mem_reverse.2 hr), fun r hr => hothers r (mt List.mem_reverse.1 hr)⟩
  rw [hvsp, husp, hsp, List.length_reverse, BitVec.sub_add_cancel]

/-! ## Jumps (spec/44_jumps.md). -/

theorem jumpWhen_effect (taken : Bool) (target : Word) (s : State) :
    ∃ t, jumpWhen taken target s = .next t ∧ KeepsAllButPc s t ∧ (taken = true → t.pc = target) ∧
      (taken = false → t.pc = s.pc) :=
  ⟨_, jumpWhen_eq taken target s, rfl, fun h => if_pos h, fun h => by simp [h]⟩

/-- A jump with a fact about its target. -/
theorem jumpWhen_effect_of {P : Word → Prop} (taken : Bool) {target : Word} (s : State) (h : P target) :
    ∃ t, jumpWhen taken target s = .next t ∧ KeepsAllButPc s t ∧ (taken = true → P t.pc) ∧
      (taken = false → t.pc = s.pc) := by
  obtain ⟨t, ht, hkeeps, htaken, hnot⟩ := jumpWhen_effect taken target s
  exact ⟨t, ht, hkeeps, fun hb => htaken hb ▸ h, hnot⟩

/-- A jump with its cycles (spec/70_reset_and_hazards.md R250). -/
theorem jumpWhen_cycles (taken : Bool) (target : Word) (s : State) :
    ∃ t, jumpWhen taken target s = .next t ∧ KeepsAllButPc s t ∧
      (taken = true → t.pc = target ∧ jumpCycles taken = 4) ∧ (taken = false → t.pc = s.pc ∧ jumpCycles taken = 3) := by
  obtain ⟨t, ht, hkeeps, htaken, hnot⟩ := jumpWhen_effect taken target s
  exact ⟨t, ht, hkeeps, fun h => ⟨htaken h, by rw [h]; rfl⟩, fun h => ⟨hnot h, by rw [h]; rfl⟩⟩

/-- Settles O34: the fields by the decoder, the words by their format, the rest by the form of a jump. -/
theorem absoluteJumpsGoToTheRegister : Obligations.AbsoluteJumpsGoToTheRegister := by
  refine ⟨fun w hop => ?_, fun rs1 p hp => ?_, fun rs1 s p hp => ?_⟩
  · exact ⟨fun h => decode_of_standsIn ⟨hop, h, rfl⟩, fun h => decode_of_standsIn ⟨hop, h, rfl⟩,
      fun h => decode_of_standsIn ⟨hop, h, rfl⟩, fun h => decode_of_standsIn ⟨hop, h, rfl⟩,
      fun h => decode_of_standsIn ⟨hop, h, rfl⟩⟩
  · simp only [List.mem_cons, List.not_mem_nil, or_false] at hp
    obtain rfl | rfl | rfl | rfl | rfl := hp
    all_goals exact toNat_encodeRS_zero_rt 0xC _ rs1
  · simp only [List.mem_cons, List.not_mem_nil, or_false] at hp
    obtain rfl | rfl | rfl | rfl | rfl := hp
    all_goals exact jumpWhen_cycles _ (s.reg rs1) s

/-- Settles O35, by the form of a jump. -/
theorem registerRelativeJumpsAddTheRegister : Obligations.RegisterRelativeJumpsAddTheRegister := by
  intro rs1 s p hp
  have htarget : (s.pc + s.reg rs1).toNat = (s.pc.toNat + (s.reg rs1).toNat) % 65536 := BitVec.toNat_add _ _
  simp only [List.mem_cons, List.not_mem_nil, or_false] at hp
  obtain rfl | rfl | rfl | rfl | rfl := hp
  all_goals exact jumpWhen_effect_of (P := fun x => x.toNat = _) _ s htarget

/-- Settles O36, by the form of a jump and the sign of the extended displacement. -/
theorem displacementJumpsAddTheSignedField : Obligations.DisplacementJumpsAddTheSignedField := by
  intro d s
  have hlow := BitVec.le_toInt d
  have hhigh := BitVec.toInt_lt (x := d)
  refine ⟨⟨by omega, by omega⟩, fun p hp => ?_⟩
  have htarget : ((s.pc + sextDisp10 d).toNat : Int) = ((s.pc.toNat : Int) + d.toInt) % 65536 :=
    toNat_add_of_toInt s.pc _ _ (toInt_sextDisp10 d)
  simp only [List.mem_cons, List.not_mem_nil, or_false] at hp
  obtain rfl | rfl | rfl | rfl | rfl := hp
  all_goals exact jumpWhen_effect_of (P := fun x => (x.toNat : Int) = _) _ s htarget

/-! ## Calls and the return (spec/45_subroutine.md). -/

theorem callTo_effect (target : Word) (s : State) : ∃ t, callTo target s = .next t ∧ CallMade target.toNat s t :=
  ⟨_, callTo_eq target s, rfl, toNat_sub_one s.sp, storesWord_of_mem_eq rfl, fun _ => rfl, rfl, rfl, rfl⟩

/-- Settles O38, by the form of a call. -/
theorem callsPushReturnAddressAndJump : Obligations.CallsPushReturnAddressAndJump := by
  refine ⟨fun rs1 s => ?_, fun rs1 s => callTo_effect (s.reg rs1) s, fun d s => ?_⟩
  · have htarget : (s.pc + s.reg rs1).toNat = (s.pc.toNat + (s.reg rs1).toNat) % 65536 := BitVec.toNat_add _ _
    rw [← htarget]
    exact callTo_effect (s.pc + s.reg rs1) s
  · have htarget : ((s.pc + sextDisp12 d).toNat : Int) = ((s.pc.toNat : Int) + d.toInt) % 65536 :=
      toNat_add_of_toInt s.pc _ _ (toInt_sextDisp12 d)
    rw [← htarget, Int.toNat_natCast]
    exact callTo_effect (s.pc + sextDisp12 d) s

/-- Settles O39: PC and SP are all that changes. -/
theorem rtsTakesPcFromTheStack : Obligations.RtsTakesPcFromTheStack := fun s =>
  ⟨_, exec_rts s, BitVec.toNat_add _ _, rfl, rfl⟩

/-- RTS undoes the form of a call. -/
theorem rts_after_callTo (target : Word) (s : State) :
    ∃ t, callTo target s = .next t ∧
      ∀ u : State, u.sp = t.sp → u.mem.readWord (t.sp + 1) = t.mem.readWord (t.sp + 1) →
        ∃ v, exec .rts u = .next v ∧ v.pc = s.pc ∧ v.sp = s.sp := by
  refine ⟨_, callTo_eq target s, fun u hsp hword => ⟨_, exec_rts u, ?_, ?_⟩⟩
  · simp only [BitVec.sub_add_cancel, readWord_writeWord_same] at hword
    simp only [hsp, BitVec.sub_add_cancel, hword]
  · simp only [hsp, BitVec.sub_add_cancel]

/-- Settles O40, by the form of a call. -/
theorem returnUndoesACall : Obligations.ReturnUndoesACall := by
  intro rs1 d s i hi
  simp only [List.mem_cons, List.not_mem_nil, or_false] at hi
  obtain rfl | rfl | rfl := hi
  all_goals exact rts_after_callTo _ s

/-! ## NOP and HALT (spec/46_nop_halt.md). -/

/-- Settles O41. -/
theorem nopChangesNothing : Obligations.NopChangesNothing :=
  ⟨fun _ hop hsub => decode_of_standsIn ⟨hop, hsub⟩, by decide, by decide, exec_nop,
    fun s hrun hd => (step_decoded s .nop hrun hd).trans (exec_nop _), fun _ => rfl⟩

/-- Settles O42. -/
theorem haltSetsTheRunState : Obligations.HaltSetsTheRunState :=
  ⟨fun _ hop hsub => decode_of_standsIn ⟨hop, hsub⟩, by decide,
    fun s => ⟨s.setHalted, exec_halt s, rfl, step_halted s.setHalted rfl⟩, fun _ => rfl⟩

end Sys2Proof.Machine

/-!
PROOFS of the family 'other', the suggested organisation: what three cycles leave, what the fourth does for each class, and the
statements about the organisation by holding that against the meanings.
-/

namespace Sys2Proof.Machine

/-! ## Several cycles. -/

theorem clocks_succ_next (k : Nat) {o p : Organisation} (h : clock o = .next p) : clocks (k + 1) o = clocks k p := by
  simp only [clocks, h]

theorem busTrace_succ_next (k : Nat) {o p : Organisation} (h : clock o = .next p) :
    busTrace (k + 1) o = busNow o :: busTrace k p := by
  simp only [busTrace, h]

theorem busTrace_one (o : Organisation) : busTrace 1 o = [busNow o] := by
  unfold busTrace
  cases clock o <;> rfl

/-- In Shalt the organisation stays as it is, with its bus idle. -/
theorem halted_organisation_idles {o : Organisation} (hfsm : o.fsm = .shalt) (hhalted : o.arch.halted = true) (k : Nat) :
    clocks k o = .next o ∧ ∀ b ∈ busTrace k o, b = .idle := by
  have hclock := clock_shalt o hfsm hhalted
  have hbus : busNow o = .idle := by rw [busNow_eq, hfsm]
  induction k with
  | zero => exact ⟨rfl, nofun⟩
  | succ k ih =>
    rw [clocks_succ_next k hclock, busTrace_succ_next k hclock, List.forall_mem_cons]
    exact ⟨ih.1, hbus, ih.2⟩

/-- `o` completes from `s`, and `o'` is the same outcome with `b` carried through in the run state. -/
def CarriesHalted (b : Bool) (o o' : Host.Outcome State Fault Refusal) : Prop :=
  ∃ t, o = .next t ∧ o' = .next { t with halted := b }

/-- No meaning but that of HALT writes the run state, and none reads it. -/
theorem exec_carriesHalted (i : Instr) (s : State) (b : Bool) (hi : i ≠ .halt) :
    CarriesHalted b (exec i s) (exec i { s with halted := b }) := by
  cases i with
  | halt => exact absurd rfl hi
  | jmpr | jmpnr | jmpzr | jmpcr | jmpvr | jmp | jmpn | jmpz | jmpc | jmpv =>
    exact ⟨_, jumpWhen_eq _ _ s, jumpWhen_eq _ _ _⟩
  | jmpd | jmpnd | jmpzd | jmpcd | jmpvd => exact ⟨_, jumpWhen_eq _ _ s, jumpWhen_eq _ _ _⟩
  | jsrr | jsr | jsrd => exact ⟨_, callTo_eq _ s, callTo_eq _ _⟩
  | _ => exact ⟨_, rfl, rfl⟩

/-- Settles O50: the run state by the frame of each meaning, the halted organisation by induction over its cycles. -/
theorem runStateIsHaltAndResetOnly : Obligations.RunStateIsHaltAndResetOnly := by
  refine ⟨fun i s => ?_, step_halted, fun o k hfsm hhalted => halted_organisation_idles hfsm hhalted k, fun _ _ => rfl⟩
  obtain ⟨t, ht, hframe⟩ := exec_frame i s
  refine ⟨t, ht, hframe.sets_halted, hframe.keeps_halted, fun b hi => ?_⟩
  obtain ⟨u, hu, hcarried⟩ := exec_carriesHalted i s b hi
  obtain rfl : u = t := Host.Outcome.next.inj (hu.symm.trans ht)
  exact hcarried

/-- Settles O58: the bus in Sfetch reads at PC. -/
theorem resetTakesTheOrganisationToSfetch : Obligations.ResetTakesTheOrganisationToSfetch := fun d o =>
  ⟨rfl, busNow_eq (organisationReset d o)⟩

/-! ## The first three cycles. -/

/-- What the second cycle puts in RB. -/
def secondOperand (i : Instr) (t : State) : Word :=
  if signalMs2 .srreg (some (instrClass i)) then t.reg (fieldRt t.ir) else t.reg (fieldRs2 t.ir)

/-- The ALU's operands in the third cycle. -/
def thirdCycleOperands (i : Instr) (t : State) : Word × Word :=
  aluOperands (instrClass i) t (t.reg (fieldRs1 t.ir)) (secondOperand i t)

/-- The organisation after the third cycle of `i`, from the state `t` that the fetch has left. -/
def afterAlu (i : Instr) (t : State) (ralu : Word) : Organisation :=
  let ops := thirdCycleOperands i t
  ⟨{ t with flags := aluFlags (instrClass i) t.flags ops.1 ops.2 }, t.reg (fieldRs1 t.ir), secondOperand i t,
    if writesRalu (instrClass i) then aluResult (instrClass i) ops.1 ops.2 else ralu, afterSalu (classOf i t.flags)⟩

section
variable {s : State} {i : Instr} (ra rb ralu : Word) (hd : decode (s.mem.readWord s.pc) = .ok i)
include hd

theorem clock_fetch (hi : i ≠ .halt) : clock (atFetch s ra rb ralu) = .next ⟨fetched s, ra, rb, ralu, .srreg⟩ := by
  rw [clock_sfetch s i ra rb ralu hd]
  simp only [if_neg hi, fetched]

theorem clocks_add_three (hi : i ≠ .halt) (k : Nat) :
    clocks (k + 3) (atFetch s ra rb ralu) = clocks k (afterAlu i (fetched s) ralu) := by
  rw [clocks_succ_next _ (clock_fetch ra rb ralu hd hi), clocks_succ_next _ (clock_srreg (fetched s) i _ _ _ hd),
    clocks_succ_next _ (clock_salu (fetched s) i _ _ _ hd)]
  rfl

theorem busTrace_add_three (hi : i ≠ .halt) (k : Nat) :
    busTrace (k + 3) (atFetch s ra rb ralu) =
      .read s.pc :: .idle :: .idle :: busTrace k (afterAlu i (fetched s) ralu) := by
  rw [busTrace_succ_next _ (clock_fetch ra rb ralu hd hi), busTrace_succ_next _ (clock_srreg (fetched s) i _ _ _ hd),
    busTrace_succ_next _ (clock_salu (fetched s) i _ _ _ hd), busNow_eq, busNow_eq, busNow_eq]
  rfl

end

/-! ## The fourth cycle. -/

/-- The architectural state after the fourth cycle of a class (spec/70_reset_and_hazards.md R254, R255). -/
def afterFourth (c : InstrClass) (s : State) (rb ralu : Word) : State :=
  match c with
  | .ld => s.setReg (fieldRt s.ir) (s.mem.readWord ralu)
  | .st => { s with mem := s.mem.writeWord ralu (s.reg (fieldRt s.ir)) }
  | .rjump | .jump | .djump => s.setPc ralu
  | .jsrr | .jsr | .jsrd => { s with mem := s.mem.writeWord s.sp s.pc, sp := s.sp - 1, pc := ralu }
  | .push => { s with mem := s.mem.writeWord s.sp rb, sp := s.sp - 1 }
  | .rts => { s with pc := s.mem.readWord ralu, sp := ralu }
  | .pop => (s.setSp ralu).setReg (fieldRt s.ir) (s.mem.readWord ralu)
  | .ldsp => s.setSp ralu
  | .nop | .halt => s
  | _ => s.setReg (fieldRt s.ir) ralu

/-- The clock edge of the fourth cycle: the control signals of each class do to the registers and to memory what
`afterFourth` says, and leave IR and the temporary registers. -/
theorem datapath_fourth (c : InstrClass) (recognisedClass : Bool) (s : State) (ra rb ralu : Word) (hnop : c ≠ .nop)
    (hhalt : c ≠ .halt) :
    datapath (microinstruction (afterSalu (some c)) (some c) recognisedClass) ⟨s, ra, rb, ralu, afterSalu (some c)⟩ =
      .ok ⟨afterFourth c s rb ralu, ra, rb, ralu, afterSalu (some c)⟩ := by
  cases c with
  | nop => exact absurd rfl hnop
  | halt => exact absurd rfl hhalt
  | _ => rfl

theorem ir_afterFourth (c : InstrClass) (s : State) (rb ralu : Word) : (afterFourth c s rb ralu).ir = s.ir := by
  cases c <;> rfl

/-- After the fourth cycle comes the next fetch. -/
theorem nextFsm_afterSalu (c : InstrClass) (following : Option InstrClass) (hnop : c ≠ .nop) (hhalt : c ≠ .halt) :
    nextFsm (afterSalu (some c)) following = .sfetch := by
  cases c with
  | nop => exact absurd rfl hnop
  | halt => exact absurd rfl hhalt
  | _ => rfl

theorem instrClass_ne_of_ne {i : Instr} (hnop : i ≠ .nop) (hhalt : i ≠ .halt) :
    instrClass i ≠ .nop ∧ instrClass i ≠ .halt := by
  cases i with
  | nop => exact absurd rfl hnop
  | halt => exact absurd rfl hhalt
  | _ => exact ⟨nofun, nofun⟩

theorem clock_fourth (s : State) (i : Instr) (ra rb ralu : Word) (hd : decode s.ir = .ok i) (hnop : i ≠ .nop)
    (hhalt : i ≠ .halt) :
    clock ⟨s, ra, rb, ralu, afterSalu (some (instrClass i))⟩ =
      .next ⟨afterFourth (instrClass i) s rb ralu, ra, rb, ralu, .sfetch⟩ := by
  obtain ⟨hcnop, hchalt⟩ := instrClass_ne_of_ne hnop hhalt
  unfold clock
  rw [control_decoded ⟨s, ra, rb, ralu, afterSalu (some (instrClass i))⟩ i hd, datapath_fourth _ _ _ _ _ _ hcnop hchalt]
  simp [ir_afterFourth, hd, nextFsm_afterSalu _ _ hcnop hchalt]

/-! ## The cycles of an instruction. -/

/-- The target of a jump, in the state that its fetch has left (spec/44_jumps.md R163 to R177). -/
def jumpTarget (i : Instr) (t : State) : Option Word :=
  match i with
  | .jmpr rs1 | .jmpnr rs1 | .jmpzr rs1 | .jmpcr rs1 | .jmpvr rs1 => some (relativeTarget t (t.reg rs1))
  | .jmp rs1 | .jmpn rs1 | .jmpz rs1 | .jmpc rs1 | .jmpv rs1 => some (t.reg rs1)
  | .jmpd d | .jmpnd d | .jmpzd d | .jmpcd d | .jmpvd d => some (relativeTarget t (sextDisp10 d))
  | _ => none

theorem exec_of_jumpTarget {i : Instr} {t : State} {target : Word} (h : jumpTarget i t = some target) :
    exec i t = jumpWhen (recognised i t.flags) target t := by
  cases i with
  | jmpr | jmpnr | jmpzr | jmpcr | jmpvr => cases h; rfl
  | jmp | jmpn | jmpz | jmpc | jmpv => cases h; rfl
  | jmpd | jmpnd | jmpzd | jmpcd | jmpvd => cases h; rfl
  | _ => cases h

/-- Only a conditional jump can be unrecognised (spec/30_encoding.md R77). -/
theorem jumpTarget_of_not_recognised {i : Instr} {f : Flags} (t : State) (h : recognised i f = false) :
    ∃ target, jumpTarget i t = some target := by
  cases i with
  | jmpnr | jmpzr | jmpcr | jmpvr | jmpn | jmpz | jmpc | jmpv | jmpnd | jmpzd | jmpcd | jmpvd => exact ⟨_, rfl⟩
  | _ => cases h

/-- After the third cycle of a jump RALU holds its target, taken or not, and no flag is written. -/
theorem afterAlu_of_jumpTarget {i : Instr} {t : State} {target : Word} (ralu : Word) (hd : decode t.ir = .ok i)
    (h : jumpTarget i t = some target) :
    afterAlu i t ralu =
      ⟨t, t.reg (fieldRs1 t.ir), secondOperand i t, target, if recognised i t.flags then .sjmp else .sfetch⟩ := by
  have hstands := standsIn_of_decode hd
  have hfsm : (instrClass i = .rjump ∨ instrClass i = .jump ∨ instrClass i = .djump) →
      afterSalu (classOf i t.flags) = if recognised i t.flags then .sjmp else .sfetch := fun hclass => by
    unfold classOf
    split
    · rcases hclass with hc | hc | hc <;> rw [hc] <;> rfl
    · rfl
  cases i with
  | jmpr | jmpnr | jmpzr | jmpcr | jmpvr =>
    obtain ⟨-, -, rfl⟩ := hstands
    cases h
    rw [← hfsm (.inl rfl), relativeTarget, BitVec.add_comm]
    rfl
  | jmp | jmpn | jmpz | jmpc | jmpv =>
    obtain ⟨-, -, rfl⟩ := hstands
    cases h
    rw [← hfsm (.inr (.inl rfl))]
    rfl
  | jmpnd | jmpzd | jmpcd | jmpvd =>
    obtain ⟨-, -, rfl⟩ := hstands
    cases h
    rw [← hfsm (.inr (.inr rfl))]
    rfl
  | jmpd =>
    obtain ⟨-, rfl⟩ := hstands
    cases h
    rw [← hfsm (.inr (.inr rfl))]
    rfl
  | _ => cases h

/-- An instruction whose class is recognised has a fourth cycle, a jump not taken has none (R250). -/
theorem cyclesOf_eq_jumpCycles {i : Instr} (f : Flags) (hnop : i ≠ .nop) (hhalt : i ≠ .halt) :
    cyclesOf i f = jumpCycles (recognised i f) := by
  cases i with
  | nop => exact absurd rfl hnop
  | halt => exact absurd rfl hhalt
  | _ => rfl

theorem fsm_afterAlu_of_recognised {i : Instr} {t : State} (ralu : Word) (hrec : recognised i t.flags = true) :
    (afterAlu i t ralu).fsm = afterSalu (some (instrClass i)) := by
  simp only [afterAlu, classOf, hrec, if_true]

/-- The meaning of an instruction is what its third and fourth cycles do to the state that the fetch has left. -/
theorem exec_eq_afterFourth {i : Instr} {t : State} (ralu : Word) (hd : decode t.ir = .ok i)
    (hrec : recognised i t.flags = true) (hnop : i ≠ .nop) (hhalt : i ≠ .halt) :
    exec i t =
      .next (afterFourth (instrClass i) (afterAlu i t ralu).arch (afterAlu i t ralu).rb (afterAlu i t ralu).ralu) := by
  have hstands := standsIn_of_decode hd
  have hjump : ∀ target, jumpTarget i t = some target → (∀ s rb, afterFourth (instrClass i) s rb target = s.setPc target) →
      exec i t =
        .next (afterFourth (instrClass i) (afterAlu i t ralu).arch (afterAlu i t ralu).rb (afterAlu i t ralu).ralu) := by
    intro target htarget hfourth
    rw [exec_of_jumpTarget htarget, afterAlu_of_jumpTarget ralu hd htarget, hfourth, hrec]
    rfl
  cases i with
  | nop => exact absurd rfl hnop
  | halt => exact absurd rfl hhalt
  | add | sub | and | or | xor | ld | st =>
    obtain ⟨-, rfl, rfl, rfl⟩ := hstands
    rfl
  | addi | subi | ldl | ldh =>
    obtain ⟨-, rfl, rfl⟩ := hstands
    rfl
  | sl0 | sl1 | sr0 | sr1 | not =>
    obtain ⟨-, -, rfl, rfl⟩ := hstands
    rfl
  | ldsp | pop | push =>
    obtain ⟨-, -, rfl⟩ := hstands
    rfl
  | rts => rfl
  | jsrr =>
    obtain ⟨-, -, rfl⟩ := hstands
    rw [exec_jsrr, relativeTarget, BitVec.add_comm]
    rfl
  | jsr =>
    obtain ⟨-, -, rfl⟩ := hstands
    rfl
  | jsrd =>
    obtain ⟨-, rfl⟩ := hstands
    rfl
  | jmpr | jmpnr | jmpzr | jmpcr | jmpvr => exact hjump _ rfl fun _ _ => rfl
  | jmp | jmpn | jmpz | jmpc | jmpv => exact hjump _ rfl fun _ _ => rfl
  | jmpd | jmpnd | jmpzd | jmpcd | jmpvd => exact hjump _ rfl fun _ _ => rfl

/-- A jump not taken has done all it does after the third cycle. -/
theorem exec_of_not_recognised {i : Instr} {t : State} (ralu : Word) (hd : decode t.ir = .ok i)
    (hrec : recognised i t.flags = false) :
    exec i t = .next t ∧ ∃ ra rb ralu', afterAlu i t ralu = ⟨t, ra, rb, ralu', .sfetch⟩ := by
  obtain ⟨target, htarget⟩ := jumpTarget_of_not_recognised t hrec
  rw [exec_of_jumpTarget htarget, afterAlu_of_jumpTarget ralu hd htarget, hrec]
  exact ⟨rfl, _, _, _, rfl⟩

/-- HALT: its fetch leads to Shalt. -/
theorem clock_fetch_halt {s : State} (ra rb ralu : Word) (hd : decode (s.mem.readWord s.pc) = .ok .halt) :
    clock (atFetch s ra rb ralu) = .next ⟨(fetched s).setHalted, ra, rb, ralu, .shalt⟩ := by
  rw [clock_sfetch s .halt ra rb ralu hd]
  rfl

/-- The cycles of any instruction but HALT end in the state its meaning leaves, at the next Sfetch. -/
theorem clocks_eq_exec {s : State} {i : Instr} (ra rb ralu : Word) (hd : decode (s.mem.readWord s.pc) = .ok i)
    (hhalt : i ≠ .halt) :
    ∃ t ra' rb' ralu', exec i (fetched s) = .next t ∧
      clocks (cyclesOf i s.flags) (atFetch s ra rb ralu) = .next ⟨t, ra', rb', ralu', .sfetch⟩ := by
  have hthree := clocks_add_three ra rb ralu hd hhalt
  by_cases hnop : i = .nop
  · subst hnop
    exact ⟨_, _, _, _, exec_nop _, hthree 0⟩
  · rw [cyclesOf_eq_jumpCycles s.flags hnop hhalt]
    cases hrec : recognised i s.flags with
    | true =>
      have hfourth := clock_fourth (afterAlu i (fetched s) ralu).arch i (afterAlu i (fetched s) ralu).ra
        (afterAlu i (fetched s) ralu).rb (afterAlu i (fetched s) ralu).ralu hd hnop hhalt
      rw [← fsm_afterAlu_of_recognised (t := fetched s) ralu hrec] at hfourth
      exact ⟨_, _, _, _, exec_eq_afterFourth (t := fetched s) ralu hd hrec hnop hhalt,
        (hthree 1).trans (clocks_succ_next 0 hfourth)⟩
    | false =>
      obtain ⟨hexec, ra', rb', ralu', halu⟩ := exec_of_not_recognised (t := fetched s) ralu hd hrec
      exact ⟨_, _, _, _, hexec, (hthree 0).trans (congrArg Host.Outcome.next halu)⟩

/-- Settles O56: HALT by its two cycles, every other instruction by its third and fourth. -/
theorem organisationRefinesTheStep : Obligations.OrganisationRefinesTheStep := by
  intro s i ra rb ralu hrun hd
  by_cases hhalt : i = .halt
  · subst hhalt
    refine ⟨(fetched s).setHalted, ra, rb, ralu, (step_decoded s _ hrun hd).trans (exec_halt _), ?_⟩
    show clocks (1 + 1) _ = _
    rw [clocks_succ_next _ (clock_fetch_halt ra rb ralu hd), clocks_succ_next _ (clock_shalt _ rfl rfl)]
    rfl
  · obtain ⟨t, ra', rb', ralu', hexec, hclocks⟩ := clocks_eq_exec ra rb ralu hd hhalt
    refine ⟨t, ra', rb', ralu', (step_decoded s i hrun hd).trans hexec, ?_⟩
    rw [hclocks, if_neg hhalt]

/-! ## The bus. -/

/-- The data transfers an instruction is listed to make, from the state that its fetch has left. -/
def dataTransfers (i : Instr) (t : State) (data : Word) : List BusCycle :=
  (dataReadAddress i t).toList.map BusCycle.read ++ (dataWriteAddress i t).toList.map (fun a => BusCycle.write a data)

/-- The word an instruction that writes memory stores (0 stands where none is). -/
def dataWritten (i : Instr) (t : State) : Word :=
  match i with
  | .st rt _ _ | .push rt => t.reg rt
  | .jsrr _ | .jsr _ | .jsrd _ => t.pc
  | _ => 0

theorem readWord_dataWritten {i : Instr} {s t : State} {a : Word} (h : exec i s = .next t)
    (ha : dataWriteAddress i s = some a) : t.mem.readWord a = dataWritten i s := by
  cases i with
  | st | push | jsrr | jsr | jsrd =>
    obtain rfl := Host.Outcome.next.inj h
    obtain rfl := Option.some.inj ha
    exact readWord_writeWord_same _ _ _
  | _ => cases ha

/-- A jump makes no data transfer. -/
theorem dataTransfers_of_jumpTarget {i : Instr} {t : State} {target : Word} (data : Word)
    (h : jumpTarget i t = some target) : dataTransfers i t data = [] := by
  cases i with
  | jmpr | jmpnr | jmpzr | jmpcr | jmpvr | jmp | jmpn | jmpz | jmpc | jmpv => rfl
  | jmpd | jmpnd | jmpzd | jmpcd | jmpvd => rfl
  | _ => cases h

/-- The bus in the fourth cycle of each class, the jumps' being idle. -/
theorem busNow_fourth {i : Instr} {t : State} (ralu : Word) (hd : decode t.ir = .ok i)
    (hrec : recognised i t.flags = true) (hnop : i ≠ .nop) (hhalt : i ≠ .halt) :
    [busNow (afterAlu i t ralu)].filter (· ≠ .idle) = dataTransfers i t (dataWritten i t) := by
  have hstands := standsIn_of_decode hd
  have hfsm := fsm_afterAlu_of_recognised ralu hrec
  rw [busNow_eq, hfsm]
  cases i with
  | nop => exact absurd rfl hnop
  | halt => exact absurd rfl hhalt
  | ld | st =>
    obtain ⟨-, rfl, rfl, rfl⟩ := hstands
    rfl
  | push =>
    obtain ⟨-, -, rfl⟩ := hstands
    rfl
  | _ => rfl

/-- Settles O57: the fetch, two idle cycles, and what the fourth cycle adds where there is one. -/
theorem oneFetchAndAtMostOneDataAccess : Obligations.OneFetchAndAtMostOneDataAccess := by
  intro s i ra rb ralu hrun hd
  obtain ⟨t, hstep, hexec, -⟩ := step_frame hrun hd
  refine ⟨t, dataWritten i (fetched s), hstep, ?_, fun a ha => readWord_dataWritten hexec ha⟩
  show (busTrace (cyclesOf i s.flags) (atFetch s ra rb ralu)).filter (· ≠ .idle) =
    .read s.pc :: dataTransfers i (fetched s) (dataWritten i (fetched s))
  by_cases hhalt : i = .halt
  · subst hhalt
    show (busTrace (1 + 1) _).filter _ = _
    rw [busTrace_succ_next _ (clock_fetch_halt ra rb ralu hd), busTrace_succ_next _ (clock_shalt _ rfl rfl), busNow_eq,
      busNow_eq]
    rfl
  · have hthree := busTrace_add_three ra rb ralu hd hhalt
    by_cases hnop : i = .nop
    · subst hnop
      show (busTrace (0 + 3) _).filter _ = _
      rw [hthree]
      rfl
    · rw [cyclesOf_eq_jumpCycles s.flags hnop hhalt]
      cases hrec : recognised i s.flags with
      | true =>
        rw [← busNow_fourth (t := fetched s) ralu hd hrec hnop hhalt]
        show (busTrace (1 + 3) _).filter _ = _
        rw [hthree, busTrace_one]
        rfl
      | false =>
        obtain ⟨target, htarget⟩ := jumpTarget_of_not_recognised (fetched s) hrec
        rw [dataTransfers_of_jumpTarget _ htarget]
        show (busTrace (0 + 3) _).filter _ = _
        rw [hthree]
        rfl

/-! ## Jumps in the organisation. -/

/-- Three cycles of a jump, with a fact about the number of its target. -/
theorem clocks_three_of_jump {s : State} {i : Instr} {target : Word} {number : Int} {taken : Bool} (ra rb ralu : Word)
    (hd : decode (s.mem.readWord s.pc) = .ok i) (htarget : jumpTarget i (fetched s) = some target)
    (hnumber : (target.toNat : Int) = number) (htaken : recognised i s.flags = taken) :
    ∃ o, clocks 3 (atFetch s ra rb ralu) = .next o ∧ (o.ralu.toNat : Int) = number ∧ o.arch = fetched s ∧
      o.fsm = if taken then .sjmp else .sfetch := by
  have hhalt : i ≠ .halt := by rintro rfl; cases htarget
  refine ⟨afterAlu i (fetched s) ralu, clocks_add_three ra rb ralu hd hhalt 0, ?_⟩
  rw [afterAlu_of_jumpTarget (t := fetched s) ralu hd htarget]
  exact ⟨hnumber, rfl, by rw [← htaken]; rfl⟩

/-- Settles O59: the three kinds of target as numbers, and each jump by its kind and its flag. -/
theorem jumpTargetReachesRaluTakenOrNot : Obligations.JumpTargetReachesRaluTakenOrNot := by
  intro s rs1 d ra rb ralu next relative absolute displaced j hj hd
  have hnext : ((s.pc + 1).toNat : Int) = next % 65536 := by
    rw [BitVec.toNat_add]; rfl
  have hrelative : ((s.pc + 1 + s.reg rs1).toNat : Int) = relative := by
    show _ = (next + (s.reg rs1).toNat) % 65536
    have hsum := BitVec.toNat_add (s.pc + 1) (s.reg rs1)
    omega
  have habsolute : ((s.reg rs1).toNat : Int) = absolute := rfl
  have hdisplaced : ((s.pc + 1 + sextDisp10 d).toNat : Int) = displaced := by
    rw [toNat_add_of_toInt _ _ _ (toInt_sextDisp10 d), hnext]; omega
  simp only [List.mem_cons, List.not_mem_nil, or_false] at hj
  obtain rfl | rfl | rfl | rfl | rfl | rfl | rfl | rfl | rfl | rfl | rfl | rfl | rfl | rfl | rfl := hj
  iterate 5 exact clocks_three_of_jump ra rb ralu hd rfl hrelative rfl
  iterate 5 exact clocks_three_of_jump ra rb ralu hd rfl habsolute rfl
  iterate 5 exact clocks_three_of_jump ra rb ralu hd rfl hdisplaced rfl

end Sys2Proof.Machine
